-- ==== Sys2Proof/Word.lean ====
section
/-! DEFINITION. The words of KCORE-1 and the plain arithmetic of 00_scope.md R9 and R10. -/

namespace Sys2Proof

/-- One byte of a data string (R9, R42). -/
abbrev Byte := BitVec 8

/-- One 64-bit word: a channel word, `M`, `K`, a hash word, a probe index or a bit index (R8, R9). -/
abbrev Word := BitVec 64

/-- `ceil_div(a, b)` of R10, taken over the naturals, where the sum cannot overflow. -/
def ceilDiv (a b : Nat) : Nat := (a + b - 1) / b

end Sys2Proof
end

