-- ==== Sys2Proof/Config.lean ====
section
/-! DEFINITION. The parameters of one block instance (00_scope.md R6, R7; 41_hash_deriver.md R107).
They are the argument `(M_MAX, L_MAX, Hash128)` of R32's step relation. No command changes them. -/

namespace Sys2Proof

/-- Which 128-bit hash the block instance is built with (R103, R107).
The hash itself is a function, so the plain-data configuration holds its name. -/
inductive HashChoice where
  /-- the default of R103: MurmurHash3_x64_128 with seed 0 -/
  | murmur3
  /-- another hash, about which the spec says nothing (R107, I1): number `n` of `Config.otherHash` -/
  | other (n : Nat)
  deriving DecidableEq, Repr

/-- The configuration of R32. DESIGN CHOICE (log entry 1): it is carried in `State.cfg`, so that
every statement about a state holds for every value of the parameters. -/
structure Config where
  /-- `M_MAX`, the largest bit-array capacity (R6) -/
  mMax : Word
  /-- `L_MAX`, the longest data string in bytes (R7) -/
  lMax : Word
  /-- the choice of `Hash128` (R107) -/
  hash : HashChoice
  deriving DecidableEq, Repr

/-- The hashes a block may have been built with in place of R103's: free values.
Nothing is known of them, as R107 and I1 ask (log entry 2). -/
opaque Config.otherHash : Nat → List Byte → BitVec 128

/-- The ranges R6 and R7 give the two limits: `1 <= M_MAX <= 2^64 - 1` and `L_MAX <= 2^64 - 2`. -/
abbrev Config.wf (c : Config) : Prop :=
  1 ≤ c.mMax.toNat ∧ c.lMax.toNat ≤ 2 ^ 64 - 2

/-- DESIGN CHOICE (log entry 1): the parameters of the block that `State.reset` describes.
R6 and R7 leave them open. `M_MAX = 1024` and `L_MAX = 4096` are the values under which every
program of 95_test_vectors.md (P1 to P5) has the responses printed there. -/
def Config.base : Config where
  mMax := 1024
  lMax := 4096
  hash := .murmur3

end Sys2Proof
end

