-- ==== Sys2Proof/Syntax.lean ====
section
/-! DEFINITION. The commands of KCORE-1, one constructor per row of spec/opcode_table.json
(30_encoding.md R64), and the lines of its assembler (R76, R77). -/

namespace Sys2Proof

/-- The ten assigned opcodes of R64. -/
inductive Opcode where
  | new | insert | contains | clear | union | clone | capacity | k | derive | locate
  deriving DecidableEq, Repr

/-- The five command formats of R65, R66, R67, R69 and R71. -/
inductive Format where
  /-- header only (R65) -/
  | N
  /-- configure: two operand words (R66) -/
  | C
  /-- data: a length word and packed bytes (R67) -/
  | D
  /-- union: a filter image (R69) -/
  | U
  /-- locate: six operand words (R71) -/
  | L
  deriving DecidableEq, Repr

/-- A command with its operands assembled (R74): whole words, the bytes of a data string
(R68), or the words of an image as they were sent, padding included (R70). -/
inductive Instr where
  /-- NEW `m_req, k_req` (R150) -/
  | new (mReq kReq : Word)
  /-- INSERT `s` (R155). The length `L` is the number of bytes of `s`. -/
  | insert (data : List Byte)
  /-- CONTAINS `s` (R160) -/
  | contains (data : List Byte)
  /-- CLEAR (R165) -/
  | clear
  /-- UNION `m_o, k_o, img` (R170) -/
  | union (mO kO : Word) (img : List Word)
  /-- CLONE (R175) -/
  | clone
  /-- CAPACITY (R180) -/
  | capacity
  /-- K (R181) -/
  | k
  /-- DERIVE `s` (R108) -/
  | derive (data : List Byte)
  /-- LOCATE `h0, h1, h2, h3, i, m` (R136) -/
  | locate (h0 h1 h2 h3 i m : Word)
  deriving DecidableEq, Repr

/-- The opcode of a command (R64). -/
def Instr.opcode : Instr → Opcode
  | .new _ _ => .new
  | .insert _ => .insert
  | .contains _ => .contains
  | .clear => .clear
  | .union _ _ _ => .union
  | .clone => .clone
  | .capacity => .capacity
  | .k => .k
  | .derive _ => .derive
  | .locate _ _ _ _ _ _ => .locate

/-- One line of assembler source (R76), with the pseudo-commands of R77. -/
inductive AsmLine where
  /-- a line with no command: blank, or a comment alone -/
  | blank
  /-- one command of R76's table -/
  | command (i : Instr)
  /-- `.word v`: the one word `v`, with no check -/
  | word (v : Word)
  /-- `LOAD m, k, (w...)` of R77 -/
  | load (m k : Word) (img : List Word)
  /-- `DEFAULT` of R77 -/
  | reinit
  deriving DecidableEq, Repr

end Sys2Proof
end

