-- ==== Sys2Proof/WellFormed.lean ====
section
/-! DEFINITION. Which commands the encoding of 30_encoding.md can carry. -/

namespace Sys2Proof

/-- A data string's length travels in the one word `W1` (R67), so it is below `2^64`. -/
def dataFits (data : List Byte) : Bool := data.length < 2 ^ 64

/-- UNION carries exactly `ceil_div(m_o, 64)` image words (R69). -/
def imageFits (mO : Word) (img : List Word) : Bool := img.length == ceilDiv mO.toNat 64

/-- The operands of the command fit its format (R65 to R71). -/
def WellFormed : Instr → Bool
  | .new _ _ => true
  | .insert data => dataFits data
  | .contains data => dataFits data
  | .clear => true
  | .union mO _ img => imageFits mO img
  | .clone => true
  | .capacity => true
  | .k => true
  | .derive data => dataFits data
  | .locate _ _ _ _ _ _ => true

end Sys2Proof
end

