-- ==== Sys2Proof/Decode.lean ====
section
/-! DEFINITION. Command words to commands and back (30_encoding.md R60 to R78). -/

namespace Sys2Proof

/-! ## The header word (R61 to R64) -/

/-- The opcode value `W0[7:0]` of an assigned opcode (R64). -/
def Opcode.code : Opcode → BitVec 8
  | .new => 0x01
  | .insert => 0x02
  | .contains => 0x03
  | .clear => 0x04
  | .union => 0x05
  | .clone => 0x06
  | .capacity => 0x07
  | .k => 0x08
  | .derive => 0x09
  | .locate => 0x0A

/-- The format column of R64. -/
def Opcode.format : Opcode → Format
  | .new => .C
  | .insert => .D
  | .contains => .D
  | .clear => .N
  | .union => .U
  | .clone => .N
  | .capacity => .N
  | .k => .N
  | .derive => .D
  | .locate => .L

/-- One row of the opcode table: a header `w` is this opcode's when `w &&& mask = pattern`. -/
structure OpRow where
  op : Opcode
  mask : Word
  pattern : Word
  deriving DecidableEq, Repr

/-- The opcode table (R64). The mask covers the whole header word, because a nonzero RSVD bit
makes the header illegal (R62). -/
def opcodeTable : List OpRow :=
  [⟨.new, 0xFFFFFFFFFFFFFFFF, 0x01⟩,
   ⟨.insert, 0xFFFFFFFFFFFFFFFF, 0x02⟩,
   ⟨.contains, 0xFFFFFFFFFFFFFFFF, 0x03⟩,
   ⟨.clear, 0xFFFFFFFFFFFFFFFF, 0x04⟩,
   ⟨.union, 0xFFFFFFFFFFFFFFFF, 0x05⟩,
   ⟨.clone, 0xFFFFFFFFFFFFFFFF, 0x06⟩,
   ⟨.capacity, 0xFFFFFFFFFFFFFFFF, 0x07⟩,
   ⟨.k, 0xFFFFFFFFFFFFFFFF, 0x08⟩,
   ⟨.derive, 0xFFFFFFFFFFFFFFFF, 0x09⟩,
   ⟨.locate, 0xFFFFFFFFFFFFFFFF, 0x0A⟩]

/-- The opcode of a legal header, or nothing for an illegal one (R62). -/
def decodeHeader (w0 : Word) : Option Opcode :=
  (opcodeTable.find? fun r => w0 &&& r.mask == r.pattern).map OpRow.op

/-- `W0[7:0]`, the field every response echoes (R61, R80). -/
def headerOpc (w0 : Word) : BitVec 8 := w0.extractLsb' 0 8

/-- The header word of an opcode: OPC in `[7:0]`, RSVD zero (R61). -/
def Opcode.header (op : Opcode) : Word := op.code.setWidth 64

/-! ## The length of a command (R73) -/

/-- `W<j>` of a command whose words are `ws`. -/
def wordAt (ws : List Word) (j : Nat) : Word := ws.getD j 0

/-- The length in words of a command with a legal header, from its format and `W1` (R73). -/
def Format.length (w1 : Word) : Format → Nat
  | .N => 1
  | .C => 3
  | .L => 7
  | .D => 2 + ceilDiv w1.toNat 8
  | .U => 3 + ceilDiv w1.toNat 64

/-- The length of the command that the words begin, as soon as they tell it (R73): an illegal
header is one word, formats N, C and L are known after `W0`, formats D and U after `W1`. -/
def commandLength? (ws : List Word) : Option Nat :=
  match ws with
  | [] => none
  | w0 :: rest =>
    match decodeHeader w0 with
    | none => some 1
    | some op =>
      match op.format, rest with
      | .D, [] => none
      | .U, [] => none
      | f, _ => some (f.length (wordAt ws 1))

/-! ## Data strings (R42, R68) -/

/-- `LE64` of R104 and R68's packing of at most eight bytes: the first byte is the least
significant one, and missing bytes are zero. -/
def le64 : List Byte → Word
  | [] => 0
  | b :: bs => b.setWidth 64 ||| (le64 bs <<< 8)

/-- Byte `j` of a word: bits `[8*j + 7 : 8*j]` (R42). -/
def wordByte (w : Word) (j : Nat) : Byte := w.extractLsb' (8 * j) 8

/-- The eight bytes of a word, least significant first (R42). -/
def wordBytes (w : Word) : List Byte :=
  [wordByte w 0, wordByte w 1, wordByte w 2, wordByte w 3,
   wordByte w 4, wordByte w 5, wordByte w 6, wordByte w 7]

/-- The string of `len` bytes that the data words carry (R68). Padding bytes are dropped. -/
def unpackBytes (len : Nat) (words : List Word) : List Byte :=
  (words.flatMap wordBytes).take len

/-- The first `n` data words of a string, the last padded with zero bytes (R68, R76). -/
def packBytes : Nat → List Byte → List Word
  | 0, _ => []
  | n + 1, bs => le64 (bs.take 8) :: packBytes n (bs.drop 8)

/-! ## Operands and whole commands (R65 to R71, R74) -/

/-- The data string of a format D command (R67, R68). -/
def dataOperand (ws : List Word) : List Byte :=
  unpackBytes (wordAt ws 1).toNat (ws.drop 2)

/-- The image words of a format U command (R69). -/
def imageOperand (ws : List Word) : List Word :=
  (ws.drop 3).take (ceilDiv (wordAt ws 1).toNat 64)

/-- The command that the words `ws` spell, for a legal header of opcode `op` (R65 to R71). -/
def assembleOperands (op : Opcode) (ws : List Word) : Instr :=
  match op with
  | .new => .new (wordAt ws 1) (wordAt ws 2)
  | .insert => .insert (dataOperand ws)
  | .contains => .contains (dataOperand ws)
  | .clear => .clear
  | .union => .union (wordAt ws 1) (wordAt ws 2) (imageOperand ws)
  | .clone => .clone
  | .capacity => .capacity
  | .k => .k
  | .derive => .derive (dataOperand ws)
  | .locate => .locate (wordAt ws 1) (wordAt ws 2) (wordAt ws 3) (wordAt ws 4) (wordAt ws 5) (wordAt ws 6)

/-- What the first words of a stream are. -/
inductive Decoded where
  /-- one whole command, and the words after it -/
  | command (i : Instr) (rest : List Word)
  /-- an illegal header `w0`, a command of one word (R63), and the words after it -/
  | illegal (w0 : Word) (rest : List Word)
  /-- the words do not yet hold one whole command (R41, R73) -/
  | incomplete
  deriving DecidableEq, Repr

/-- Read one command from the front of a word stream. Total on any words (R62, R73). -/
def decode (ws : List Word) : Decoded :=
  match commandLength? ws with
  | none => .incomplete
  | some n =>
    if ws.length < n then .incomplete
    else
      match decodeHeader (wordAt ws 0) with
      | none => .illegal (wordAt ws 0) (ws.drop n)
      | some op => .command (assembleOperands op ws) (ws.drop n)

/-! ## The encoder (R65 to R71, R76) -/

/-- `len(s)` and the data words of `s` (R67, R68). -/
def encodeData (op : Opcode) (data : List Byte) : List Word :=
  op.header :: BitVec.ofNat 64 data.length :: packBytes (ceilDiv data.length 8) data

/-- The words of a command (R76). -/
def encode : Instr → List Word
  | .new mReq kReq => [Opcode.new.header, mReq, kReq]
  | .insert data => encodeData .insert data
  | .contains data => encodeData .contains data
  | .clear => [Opcode.clear.header]
  | .union mO kO img => Opcode.union.header :: mO :: kO :: img
  | .clone => [Opcode.clone.header]
  | .capacity => [Opcode.capacity.header]
  | .k => [Opcode.k.header]
  | .derive data => encodeData .derive data
  | .locate h0 h1 h2 h3 i m => [Opcode.locate.header, h0, h1, h2, h3, i, m]

/-- The commands a line of assembler stands for (R76, R77). A `.word` is not one. -/
def AsmLine.expand : AsmLine → List Instr
  | .blank => []
  | .command i => [i]
  | .word _ => []
  | .load m k img => [.new m k, .union m k img]
  | .reinit => [.new 1 1]

/-- The words a line of assembler emits (R76, R77). -/
def AsmLine.words : AsmLine → List Word
  | .word v => [v]
  | .blank => []
  | .command i => encode i
  | .load m k img => (AsmLine.load m k img).expand.flatMap encode
  | .reinit => AsmLine.reinit.expand.flatMap encode

/-! ## The table's numbering of bits -/

/-- Word `j` of a command whose bits are the number `w`, bit 0 of the first word least
significant. Every bit at or above `nbits` is 0. -/
def tableWord (nbits w j : Nat) : Word := BitVec.ofNat 64 ((w % 2 ^ nbits) / 2 ^ (64 * j))

/-- The words of the one command that the bits of `w` begin, operand words past `nbits` zero. -/
def tableWords (nbits w : Nat) : List Word :=
  match commandLength? [tableWord nbits w 0, tableWord nbits w 1] with
  | none => []
  | some n => (List.range n).map (tableWord nbits w)

/-- The instruction the decoder reads from a row's bits. -/
def decodeTableWord (nbits w : Nat) : Option Instr :=
  match decode (tableWords nbits w) with
  | .command i _ => some i
  | .illegal _ _ => none
  | .incomplete => none

end Sys2Proof
end

