-- ==== Sys2Proof/Machine/State.lean ====
section
/-! DEFINITION. The state of the block (10_state.md R20 to R34), its stops and its reset value. -/

namespace Sys2Proof.Machine

/-- The bitset store `BITS` (R22, R34), whose smallest addressable unit is one bit: the list of the
addresses that hold 1. An address that is not listed reads as 0, the value NEW, CLEAR and reset
give every bit (R33, R150, R165). See log entry 8. -/
abbrev Memory := List Nat

/-- What an address that is not listed reads as: 0 (R33: "all zero"). -/
def Memory.unlisted : Bool := false

/-- The store with every bit 0. -/
def Memory.zero : Memory := []

/-- The canonical form: addresses strictly rising, so that equal stores are equal lists. -/
abbrev Memory.wf (mem : Memory) : Prop := mem.Pairwise (· < ·)

/-- The state of the block and of its two channels. -/
structure State where
  /-- the capacity register `m` (R20) -/
  M : Word
  /-- the probe-count register `k` (R21) -/
  K : Word
  /-- the bitset store, bits `0 .. M-1` (R22, R28) -/
  BITS : Memory
  /-- the words of the command being received (R29, R41) -/
  cmdbuf : List Word
  /-- response words emitted and not yet taken by the host, oldest first (R29) -/
  rspq : List Word
  /-- the command channel: words the host has sent and the block has not taken, oldest first
  (R40, R241) -/
  cmdq : List Word
  /-- the reset input: asserted, and not yet acted on (R230; log entry 4) -/
  rst : Bool
  /-- the parameters of this block instance, which no step changes (R32; log entry 1) -/
  cfg : Config
  deriving DecidableEq, Repr

/-- Why the machine stops. No command of KCORE-1 stops it: every error of the spec is a response
(R200, R208). -/
inductive Fault where
  /-- `MemRead` or `MemWrite` at a bit index outside `0 .. M-1`, for which R11 defines neither.
  Raised by `State.memRead` and `State.memWrite`. Safe: it is reached only from states in which
  `M = 0`, which R20 rules out (log entry 9). -/
  | bitIndexOutOfRange
  deriving DecidableEq, Repr

/-- Why an instruction is given no meaning. -/
inductive Refusal where
  /-- An instruction whose arm of `exec` is still rejected by name. Safe. No arm answers so. -/
  | notModelled (mnemonic : String)
  deriving DecidableEq, Repr

/-- The reset state of R33 for a block with parameters `c`: `M = 1`, `K = 1`, one zero bit,
`cmdbuf` and `rspq` empty. The command channel is empty too (log entry 3). -/
def State.resetWith (c : Config) : State where
  M := 1
  K := 1
  BITS := Memory.zero
  cmdbuf := []
  rspq := []
  cmdq := []
  rst := false
  cfg := c

/-- The machine right after reset (R33, R230). -/
def State.reset : State := State.resetWith Config.base

end Sys2Proof.Machine
end

