-- ==== Sys2Proof/Machine/Flags.lean ====
section
/-! DEFINITION. The block has no flags (10_state.md R25). The outcome of a command is in its status
word instead: this file holds the status word and what the host reads from it (30_encoding.md R80
to R83). -/

namespace Sys2Proof.Machine

/-- The outcomes of R81. -/
inductive Status where
  | ok
  | dimensionMismatch
  | illegalCommand
  | capacityExceeded
  | invalidOperand
  deriving DecidableEq, Repr

/-- The STATUS code of an outcome (R81, R200). -/
def Status.code : Status → BitVec 8
  | .ok => 0x00
  | .dimensionMismatch => 0x01
  | .illegalCommand => 0x02
  | .capacityExceeded => 0x03
  | .invalidOperand => 0x04

/-- `RSP0 = (DETAIL << 16) | (OPC << 8) | code` (R80). -/
def statusWord (st : Status) (opc detail : BitVec 8) : Word :=
  (detail.setWidth 64 <<< 16) ||| (opc.setWidth 64 <<< 8) ||| st.code.setWidth 64

/-- `RSP0[7:0]` (R80). -/
def rspStatus (rsp0 : Word) : BitVec 8 := rsp0.extractLsb' 0 8

/-- `RSP0[15:8]`, the OPC echo (R80). -/
def rspOpc (rsp0 : Word) : BitVec 8 := rsp0.extractLsb' 8 8

/-- `RSP0[23:16]` (R80). -/
def rspDetail (rsp0 : Word) : BitVec 8 := rsp0.extractLsb' 16 8

/-- The payload length of an OK response to opcode `op`, given `RSP1` (the OK rows of R82). -/
def okPayloadLength (rsp1 : Word) : Opcode → Nat
  | .new => 0
  | .insert => 0
  | .contains => 1
  | .clear => 0
  | .union => 0
  | .clone => 2 + ceilDiv rsp1.toNat 64
  | .capacity => 1
  | .k => 1
  | .derive => 4
  | .locate => 1

/-- The length in words of the response that begins with `rsp0` and then, if it has a payload,
`rsp1` (R83). Nothing, for a status word the block never sends. -/
def responseLength? (rsp0 rsp1 : Word) : Option Nat :=
  if rspStatus rsp0 = Status.ok.code then
    (decodeHeader ((rspOpc rsp0).setWidth 64)).map fun op => 1 + okPayloadLength rsp1 op
  else if rspStatus rsp0 = Status.dimensionMismatch.code then some 3
  else if rspStatus rsp0 = Status.illegalCommand.code then some 1
  else if rspStatus rsp0 = Status.capacityExceeded.code then some 3
  else if rspStatus rsp0 = Status.invalidOperand.code then
    if rspDetail rsp0 = 0 then some 2 else some 1
  else none

end Sys2Proof.Machine
end

