-- ==== Sys2Proof/Machine/Operands.lean ====
section
/-! DEFINITION. The operand forms that a command reads after decoding (30_encoding.md R70, R74;
43_bitset_store.md R151). Data strings are assembled in Decode.lean. -/

namespace Sys2Proof.Machine

/-- NEW's clamp `max(v, 1)`: a requested 0 becomes 1, every other value is kept (R151). -/
def clampToOne (v : Word) : Word := if v = 0 then 1 else v

/-- Bit `j` of an operand image: `img[j] = W[3 + j / 64][j mod 64]` (R70). -/
def imageBit (img : List Word) (j : Nat) : Bool := (img.getD (j / 64) 0).getLsbD (j % 64)

/-- The length `L` of a data string as the word it travels in (R67). -/
def dataLength (data : List Byte) : Word := BitVec.ofNat 64 data.length

end Sys2Proof.Machine
end

