-- ==== Sys2Proof/Machine/Ops.lean ====
section
/-! DEFINITION. The shared operations of every command: the bitset store one bit at a time
(00_scope.md R11), responding, and raising an error (60_exceptions.md R205). -/

namespace Sys2Proof.Machine

/-! ## The store as data -/

/-- The bit at address `j`. -/
def Memory.read (mem : Memory) (j : Nat) : Bool :=
  if mem.contains j then !Memory.unlisted else Memory.unlisted

/-- List address `j`, keeping the addresses strictly rising. -/
def Memory.setOne (j : Nat) : Memory → Memory
  | [] => [j]
  | a :: rest =>
    if j < a then j :: a :: rest
    else if j = a then a :: rest
    else a :: Memory.setOne j rest

/-- Unlist address `j`. -/
def Memory.setZero (j : Nat) : Memory → Memory
  | [] => []
  | a :: rest => if j = a then Memory.setZero j rest else a :: Memory.setZero j rest

/-- Write bit `b` at address `j`. Writing 0 removes the entry. -/
def Memory.write (mem : Memory) (j : Nat) (b : Bool) : Memory :=
  if b then Memory.setOne j mem else Memory.setZero j mem

/-! ## Updates of the state -/

/-- Replace the contents of the store. -/
def State.setBits (s : State) (mem : Memory) : State := { s with BITS := mem }

/-- Write both control registers. Only NEW does (R20, R21). -/
def State.setDims (s : State) (m k : Word) : State := { s with M := m, K := k }

/-- `SendWord` for each word in turn (R11): append to the response channel (R40, R41). -/
def State.send (s : State) (words : List Word) : State := { s with rspq := s.rspq ++ words }

/-- Replace the words of the command being received. -/
def State.setBuf (s : State) (ws : List Word) : State := { s with cmdbuf := ws }

/-- Replace the words on the command channel. -/
def State.setCmdq (s : State) (ws : List Word) : State := { s with cmdq := ws }

/-! ## The store through its two primitives (R11, R22) -/

/-- `MemRead(j, 1)`, defined for `0 <= j < M` (R11). -/
def State.memRead (s : State) (j : Nat) : Option Bool :=
  if j < s.M.toNat then some (s.BITS.read j) else none

/-- `MemWrite(j, 1, b)`, defined for `0 <= j < M` (R11). -/
def State.memWrite (s : State) (j : Nat) (b : Bool) : Option State :=
  if j < s.M.toNat then some (s.setBits (s.BITS.write j b)) else none

/-! ## How a command ends -/

/-- `respond OK(w1, ..., wn)` (R11, R80). -/
def State.respond (s : State) (op : Opcode) (payload : List Word) : State :=
  s.send (statusWord .ok op.code 0 :: payload)

/-- `raise E(detail, info)` (R205): the one way a command ends in an error, with `s` the state
before the command and `opc` its `W0[7:0]`. No staged write takes effect, so `M`, `K` and `BITS` are
those of `s`, and the error response is emitted.
There is no return from it (R208): no state is saved, no mode changes, and the next command word is
read as a new header. -/
def State.raise (s : State) (opc : BitVec 8) (e : Status) (detail : BitVec 8) (info : List Word) : State :=
  s.send (statusWord e opc detail :: info)

/-- An illegal header `w0` (R63, R204): a command of one word that performs nothing. -/
def illegalCommand (w0 : Word) (s : State) : State :=
  s.raise (headerOpc w0) .illegalCommand 0 []

/-- The end of a command whose store accesses all lay inside the store, or the fault otherwise. -/
def finish {α : Type} (r : Option α) (k : α → State) : Host.Outcome State Fault Refusal :=
  match r with
  | some a => .next (k a)
  | none => .fault .bitIndexOutOfRange

/-- `L > L_MAX` of INSERT, CONTAINS and DERIVE (R108, R155, R160). -/
def State.tooLong (s : State) (data : List Byte) : Bool := s.cfg.lMax.toNat < data.length

/-- INVALID_OPERAND with DETAIL 0, which records `L` (R203). -/
def State.raiseTooLong (s : State) (op : Opcode) (data : List Byte) : State :=
  s.raise op.code .invalidOperand 0 [dataLength data]

end Sys2Proof.Machine
end

