-- ==== Sys2Proof/Machine/Channel.lean ====
section
/-! DEFINITION. The block at its two channels and its reset input, and the host's side of them
(20_memory.md R40, R41; 70_reset_and_hazards.md R230 to R237). -/

namespace Sys2Proof.Machine

/-! ## What the block does next -/

/-- The block's next turn. -/
inductive Turn where
  /-- perform command `i` in state `t` -/
  | perform (i : Instr) (t : State)
  /-- become state `t` -/
  | become (t : State)
  deriving DecidableEq, Repr

/-- Act on the reset input (R230, R231, R232): the reset state, whatever was under way. -/
def State.takeReset (s : State) : State := State.resetWith s.cfg

/-- Take the next word of the command channel into `cmdbuf` (R41), or stay idle when there is
none (R216). -/
def State.takeWord (s : State) : State :=
  match s.cmdq with
  | [] => s
  | w :: rest => (s.setBuf (s.cmdbuf ++ [w])).setCmdq rest

/-- What the block does next (R41): reset comes first (R231), a complete command in `cmdbuf` is
performed and leaves `cmdbuf`, and only otherwise is a command word taken. -/
def State.turn (s : State) : Turn :=
  if s.rst then .become s.takeReset
  else
    match decode s.cmdbuf with
    | .command i rest => .perform i (s.setBuf rest)
    | .illegal w0 rest => .become (illegalCommand w0 (s.setBuf rest))
    | .incomplete => .become s.takeWord

/-! ## The host's side (R40, R230, R237)

A wait of R237 is the host's step not being taken, so the block needs no buffer depth
(log entry 11). -/

/-- The host sends one word: it joins the end of the command channel (R40). DESIGN CHOICE (log entry 4):
not enabled while reset is asserted. -/
def State.hostSend (s : State) (w : Word) : Option State :=
  if s.rst then none else some (s.setCmdq (s.cmdq ++ [w]))

/-- The host takes the oldest response word, if there is one (R40). DESIGN CHOICE (log entry 4): this stays
enabled after the host has asserted reset and until the block acts on it, an interval R230 does not give. -/
def State.hostTake (s : State) : Option (Word × State) :=
  match s.rspq with
  | [] => none
  | w :: rest => some (w, { s with rspq := rest })

/-- The host asserts the reset input (R230). -/
def State.hostReset (s : State) : State := { s with rst := true }

end Sys2Proof.Machine
end

