-- ==== Sys2Proof/Machine/HashDeriver.lean ====
section
/-! DEFINITION. The hash deriver and DERIVE (41_hash_deriver.md R100 to R109). -/

namespace Sys2Proof.Machine

/-! ## MurmurHash3_x64_128 (R104 to R106) -/

/-- `rotl64(x, r)` of R10, for `0 < r < 64`. -/
def rotl64 (x : Word) (r : Nat) : Word := (x <<< r) ||| (x >>> (64 - r))

/-- `C1` of R104. -/
def murmurC1 : Word := 0x87C37B91114253D5

/-- `C2` of R104. -/
def murmurC2 : Word := 0x4CF5AD432745937F

/-- `k1 *w C1`, rotated by 31, `*w C2` (R104, R105). -/
def mixK1 (k1 : Word) : Word := rotl64 (k1 * murmurC1) 31 * murmurC2

/-- `k2 *w C2`, rotated by 33, `*w C1` (R104, R105). -/
def mixK2 (k2 : Word) : Word := rotl64 (k2 * murmurC2) 33 * murmurC1

/-- The two state words `a` and `b` of the algorithm. -/
structure HashState where
  a : Word
  b : Word
  deriving DecidableEq, Repr

/-- One whole 16-byte block, whose two halves are `k1` and `k2` (R104). -/
def murmurBlock (st : HashState) (k1 k2 : Word) : HashState :=
  let a := (rotl64 (st.a ^^^ mixK1 k1) 27 + st.b) * 5 + 0x52DCE729
  let b := (rotl64 (st.b ^^^ mixK2 k2) 31 + a) * 5 + 0x38495AB5
  ⟨a, b⟩

/-- The state after the first `n` blocks of `s`, `for blk in 0 .. n` (R104). -/
def murmurBody (s : List Byte) (st : HashState) : Nat → HashState
  | 0 => st
  | blk + 1 =>
    murmurBlock (murmurBody s st blk)
      (le64 ((s.drop (16 * blk)).take 8)) (le64 ((s.drop (16 * blk + 8)).take 8))

/-- The tail `t` of fewer than 16 bytes (R105): the `k2` part when it has more than 8 bytes, then the
`k1` part when it has any. -/
def murmurTail (t : List Byte) (st : HashState) : HashState where
  b := if 8 < t.length then st.b ^^^ mixK2 (le64 (t.drop 8)) else st.b
  a := if 0 < t.length then st.a ^^^ mixK1 (le64 (t.take 8)) else st.a

/-- `fmix64` (R106). -/
def fmix64 (x : Word) : Word :=
  let x := x ^^^ (x >>> 33)
  let x := x * 0xFF51AFD7ED558CCD
  let x := x ^^^ (x >>> 33)
  let x := x * 0xC4CEB9FE1A85EC53
  x ^^^ (x >>> 33)

/-- The finalization over a string of `n` bytes: `(b << 64) | a` (R106). -/
def murmurFinal (n : Nat) (st : HashState) : BitVec 128 :=
  let a := st.a ^^^ BitVec.ofNat 64 n
  let b := st.b ^^^ BitVec.ofNat 64 n
  let a := a + b
  let b := b + a
  let a := fmix64 a
  let b := fmix64 b
  let a := a + b
  let b := b + a
  (b.setWidth 128 <<< 64) ||| a.setWidth 128

/-- `MurmurHash3_x64_128(s, seed)` (R104 to R106). -/
def murmur3 (s : List Byte) (seed : Word) : BitVec 128 :=
  let blocks := s.length / 16
  murmurFinal s.length (murmurTail (s.drop (16 * blocks)) (murmurBody s ⟨seed, seed⟩ blocks))

/-- `Hash128` of a block built with hash choice `c` (R103, R107). -/
def hash128 (c : HashChoice) (s : List Byte) : BitVec 128 :=
  match c with
  | .murmur3 => murmur3 s 0
  | .other n => Config.otherHash n s

/-! ## derive (R100 to R102) -/

/-- The hash vector `[h1_low, h1_high, h2_low, h2_high]` (R8, R102). -/
structure HashWords where
  h0 : Word
  h1 : Word
  h2 : Word
  h3 : Word
  deriving DecidableEq, Repr

/-- `value & 0xFFFFFFFFFFFFFFFF`, which is `value[63:0]` (R101). -/
def lowHalf (v : BitVec 128) : Word := (v &&& 0xFFFFFFFFFFFFFFFF).setWidth 64

/-- `value >> 64`, which is `value[127:64]` (R101). -/
def highHalf (v : BitVec 128) : Word := (v >>> 64).setWidth 64

/-- `derive(data)` (R100). -/
def deriveWords (c : HashChoice) (data : List Byte) : HashWords :=
  let h1 := hash128 c data
  let h2 := hash128 c (data ++ [0x01])
  ⟨lowHalf h1, highHalf h1, lowHalf h2, highHalf h2⟩

/-! ## The command -/

/-- DERIVE (R108). -/
def execDerive (data : List Byte) (s : State) : Host.Outcome State Fault Refusal :=
  if s.tooLong data then .next (s.raiseTooLong .derive data)
  else
    let h := deriveWords s.cfg.hash data
    .next (s.respond .derive [h.h0, h.h1, h.h2, h.h3])

end Sys2Proof.Machine
end

