-- ==== Sys2Proof/Machine/IndexGenerator.lean ====
section
/-! DEFINITION. The bit index generator and LOCATE (42_index_generator.md R130 to R139). -/

namespace Sys2Proof.Machine

/-- `h[j]`, element `j` of the hash vector, for `j < 4` (R10). -/
def HashWords.word (h : HashWords) (j : Nat) : Word :=
  match j with
  | 0 => h.h0
  | 1 => h.h1
  | 2 => h.h2
  | _ => h.h3

/-- `mix_selector` (R130, step 2). The sum `i + (i mod 2)` is taken exactly (R135). -/
def mixSelector (i : Nat) : Nat := 2 + ((i + i % 2) % 4) / 2

/-- `combined = base +w (i *w mixer)` (R130 steps 1 to 4, R133). -/
def combined (h : HashWords) (i : Word) : Word :=
  h.word (i.toNat % 2) + i * h.word (mixSelector i.toNat)

/-- `locate(h, i, m)`, for `m >= 1` (R130, R134). -/
def locate (h : HashWords) (i m : Word) : Word := combined h i % m

/-- LOCATE (R136). -/
def execLocate (h0 h1 h2 h3 i m : Word) (s : State) : Host.Outcome State Fault Refusal :=
  if m = 0 then .next (s.raise Opcode.locate.code .invalidOperand 1 [])
  else .next (s.respond .locate [locate ⟨h0, h1, h2, h3⟩ i m])

end Sys2Proof.Machine
end

