-- ==== Sys2Proof/Machine/BitsetStore.lean ====
section
/-! DEFINITION. The bitset store's commands (43_bitset_store.md R150 to R185). -/

namespace Sys2Proof.Machine

/-! ## NEW, CLEAR -/

/-- Every bit of the store to 0: the loop of `MemWrite(j, 1, 0)` over the whole store (R150, R165),
written as one assignment (log entry 12). -/
def State.zeroStore (s : State) : State := s.setBits Memory.zero

/-- NEW (R150, R151, R152). -/
def execNew (mReq kReq : Word) (s : State) : Host.Outcome State Fault Refusal :=
  let m := clampToOne mReq
  let k := clampToOne kReq
  if s.cfg.mMax.toNat < m.toNat then
    .next (s.raise Opcode.new.code .capacityExceeded 0 [m, s.cfg.mMax])
  else .next (((s.setDims m k).zeroStore).respond .new [])

/-- CLEAR (R165). -/
def execClear (s : State) : Host.Outcome State Fault Refusal :=
  .next (s.zeroStore.respond .clear [])

/-! ## The probe loop of INSERT and CONTAINS (R185) -/

/-- The bit index of probe `i` of a hash vector in this store: `locate(h, i, M)` (R155, R160). -/
def State.probe (s : State) (h : HashWords) (i : Nat) : Nat :=
  (locate h (BitVec.ofNat 64 i) s.M).toNat

/-- `for i in 0 .. n: MemWrite(locate(h, i, M), 1, 1)` (R155). -/
def State.setProbes (s : State) (h : HashWords) : Nat → Option State
  | 0 => some s
  | n + 1 => (s.setProbes h n).bind fun t => t.memWrite (t.probe h n) true

/-- The next `n` probes from `i` on, stopping at the first unset bit (R160). -/
def State.allProbesSet (s : State) (h : HashWords) : Nat → Nat → Option Bool
  | 0, _ => some true
  | n + 1, i =>
    match s.memRead (s.probe h i) with
    | none => none
    | some false => some false
    | some true => s.allProbesSet h n (i + 1)

/-- INSERT (R155). -/
def execInsert (data : List Byte) (s : State) : Host.Outcome State Fault Refusal :=
  if s.tooLong data then .next (s.raiseTooLong .insert data)
  else finish (s.setProbes (deriveWords s.cfg.hash data) s.K.toNat) fun t => t.respond .insert []

/-- CONTAINS (R160): the payload is 1 if every probed bit is 1, else 0. -/
def execContains (data : List Byte) (s : State) : Host.Outcome State Fault Refusal :=
  if s.tooLong data then .next (s.raiseTooLong .contains data)
  else
    finish (s.allProbesSet (deriveWords s.cfg.hash data) s.K.toNat 0) fun found =>
      s.respond .contains [if found then 1 else 0]

/-! ## UNION -/

/-- `for j in 0 .. n: MemWrite(j, 1, MemRead(j, 1) | img[j])` (R170, R172). -/
def State.orImage (s : State) (img : List Word) : Nat → Option State
  | 0 => some s
  | n + 1 =>
    (s.orImage img n).bind fun t =>
      (t.memRead n).bind fun b => t.memWrite n (b || imageBit img n)

/-- UNION (R170 to R172): `m` is compared before `k` (R171). -/
def execUnion (mO kO : Word) (img : List Word) (s : State) : Host.Outcome State Fault Refusal :=
  if s.M ≠ mO then .next (s.raise Opcode.union.code .dimensionMismatch 0 [s.M, mO])
  else if s.K ≠ kO then .next (s.raise Opcode.union.code .dimensionMismatch 1 [s.K, kO])
  else finish (s.orImage img s.M.toNat) fun t => t.respond .union []

/-! ## CLONE, CAPACITY, K -/

/-- The low `n` bits of image word `w`: bit `b` is bit `64*w + b` of the store where that index is
below `M`, and a pad bit, 0, elsewhere (R175). -/
def State.cloneWord (s : State) (w : Nat) : Nat → Word
  | 0 => 0
  | b + 1 =>
    match s.memRead (64 * w + b) with
    | some true => s.cloneWord w b ||| ((1 : Word) <<< b)
    | some false => s.cloneWord w b
    | none => s.cloneWord w b

/-- The image words `I0 .. I(ceil_div(M, 64) - 1)` of the store (R72, R175). -/
def State.imageWords (s : State) : List Word :=
  (List.range (ceilDiv s.M.toNat 64)).map fun w => s.cloneWord w 64

/-- CLONE (R175). -/
def execClone (s : State) : Host.Outcome State Fault Refusal :=
  .next (s.respond .clone (s.M :: s.K :: s.imageWords))

/-- CAPACITY (R180). -/
def execCapacity (s : State) : Host.Outcome State Fault Refusal :=
  .next (s.respond .capacity [s.M])

/-- K (R181). -/
def execK (s : State) : Host.Outcome State Fault Refusal :=
  .next (s.respond .k [s.K])

end Sys2Proof.Machine
end

