-- ==== Sys2Proof/Machine/Dispatch.lean ====
section
/-! DEFINITION. The dispatcher (43_bitset_store.md R186): one arm per command, no default arm.
The eleventh header class, illegal, is no instruction; `Machine/Channel.lean` performs it. -/

namespace Sys2Proof.Machine

/-- Perform one command: `exec(cmd, S)` of R186. -/
def exec (i : Instr) (s : State) : Host.Outcome State Fault Refusal :=
  match i with
  | .new mReq kReq => Sys2Proof.Machine.execNew mReq kReq s
  | .insert data => Sys2Proof.Machine.execInsert data s
  | .contains data => Sys2Proof.Machine.execContains data s
  | .clear => Sys2Proof.Machine.execClear s
  | .union mO kO img => Sys2Proof.Machine.execUnion mO kO img s
  | .clone => Sys2Proof.Machine.execClone s
  | .capacity => Sys2Proof.Machine.execCapacity s
  | .k => Sys2Proof.Machine.execK s
  | .derive data => Sys2Proof.Machine.execDerive data s
  | .locate h0 h1 h2 h3 idx m => Sys2Proof.Machine.execLocate h0 h1 h2 h3 idx m s

end Sys2Proof.Machine
end

