-- ==== Sys2Proof/Machine/Step.lean ====
section
/-! DEFINITION. One step of the block (20_memory.md R41, R49). -/

namespace Sys2Proof.Machine

/-- One step: reset, perform the complete command in `cmdbuf`, or take one command word. -/
def step (s : State) : Host.Outcome State Fault Refusal :=
  match s.turn with
  | .perform i t => exec i t
  | .become t => .next t

/-- `s` with the command that the bits of `w` begin held whole in `cmdbuf`, and reset not asserted:
the very next step performs it (log entry 7). -/
def State.withFetchWord (s : State) (nbits w : Nat) : State :=
  { s with cmdbuf := tableWords nbits w, rst := false }

end Sys2Proof.Machine
end

