-- ==== Sys2Proof/Machine/Assembler.lean ====
section
/-! DEFINITION. The assembler of KCORE-1 (30_encoding.md R76, R77) and the source's bit-pattern
strings (20_memory.md R56). The host uses them; the block sees words only.
Points R76 leaves open, such as letter case and white space, are in log entry 15. -/

namespace Sys2Proof.Machine

/-! ## Tokens -/

/-- A token of one line. -/
inductive Token where
  /-- a mnemonic or a number -/
  | atom (cs : List Char)
  /-- a double-quoted string, escapes resolved -/
  | text (bytes : List Byte)
  | comma
  | openSquare
  | closeSquare
  | openCurly
  | closeCurly
  deriving DecidableEq, Repr

/-- Where the reader of a line stands. -/
inductive LexMode where
  /-- between tokens -/
  | between
  /-- inside a mnemonic or number -/
  | inAtom (cs : List Char)
  /-- inside a string -/
  | inText (bytes : List Byte)
  /-- after the backslash of `\xHH` -/
  | escape (bytes : List Byte)
  /-- after `\x` -/
  | escapeX (bytes : List Byte)
  /-- after the first hexadecimal digit of `\xHH` -/
  | escapeDigit (bytes : List Byte) (hi : Nat)
  /-- after `;` -/
  | comment
  deriving DecidableEq, Repr

/-- The tokens read so far, and where the reader stands. -/
structure LexState where
  tokens : List Token
  mode : LexMode
  deriving DecidableEq, Repr

/-- The value of a hexadecimal digit. -/
def hexDigit (c : Char) : Option Nat :=
  let n := c.toNat
  if 48 ≤ n ∧ n ≤ 57 then some (n - 48)
  else if 65 ≤ n ∧ n ≤ 70 then some (n - 55)
  else if 97 ≤ n ∧ n ≤ 102 then some (n - 87)
  else none

/-- The characters of mnemonics and numbers: letters, digits and the dot of `.word`. -/
def isAtomChar (c : Char) : Bool :=
  let n := c.toNat
  (48 ≤ n && n ≤ 57) || (65 ≤ n && n ≤ 90) || (97 ≤ n && n ≤ 122) || n == 46

/-- One character between tokens. The brace characters are those of code 123 and 125. -/
def lexBetween (done : List Token) (c : Char) : Option LexState :=
  let n := c.toNat
  if n = 32 ∨ n = 9 ∨ n = 13 then some ⟨done, .between⟩
  else if n = 44 then some ⟨done ++ [.comma], .between⟩
  else if n = 91 then some ⟨done ++ [.openSquare], .between⟩
  else if n = 93 then some ⟨done ++ [.closeSquare], .between⟩
  else if n = 123 then some ⟨done ++ [.openCurly], .between⟩
  else if n = 125 then some ⟨done ++ [.closeCurly], .between⟩
  else if n = 34 then some ⟨done, .inText []⟩
  else if n = 59 then some ⟨done, .comment⟩
  else if isAtomChar c then some ⟨done, .inAtom [c]⟩
  else none

/-- One character of a line. -/
def lexChar (st : LexState) (c : Char) : Option LexState :=
  match st.mode with
  | .between => lexBetween st.tokens c
  | .inAtom cs =>
    if isAtomChar c then some ⟨st.tokens, .inAtom (cs ++ [c])⟩
    else lexBetween (st.tokens ++ [.atom cs]) c
  | .inText bytes =>
    if c.toNat = 34 then some ⟨st.tokens ++ [.text bytes], .between⟩
    else if c.toNat = 92 then some ⟨st.tokens, .escape bytes⟩
    else if c.toNat < 128 then some ⟨st.tokens, .inText (bytes ++ [BitVec.ofNat 8 c.toNat])⟩
    else none
  | .escape bytes => if c.toNat = 120 then some ⟨st.tokens, .escapeX bytes⟩ else none
  | .escapeX bytes => (hexDigit c).map fun d => ⟨st.tokens, .escapeDigit bytes d⟩
  | .escapeDigit bytes hi =>
    (hexDigit c).map fun d => ⟨st.tokens, .inText (bytes ++ [BitVec.ofNat 8 (16 * hi + d)])⟩
  | .comment => some st

/-- The rest of a line from a given point. -/
def lexFrom : LexState → List Char → Option LexState
  | st, [] => some st
  | st, c :: cs => (lexChar st c).bind fun st' => lexFrom st' cs

/-- The tokens at the end of a line. An unfinished string is no line. -/
def lexEnd (st : LexState) : Option (List Token) :=
  match st.mode with
  | .between => some st.tokens
  | .comment => some st.tokens
  | .inAtom cs => some (st.tokens ++ [.atom cs])
  | .inText _ => none
  | .escape _ => none
  | .escapeX _ => none
  | .escapeDigit _ _ => none

/-- The tokens of one line. -/
def lexLine (line : List Char) : Option (List Token) :=
  (lexFrom ⟨[], .between⟩ line).bind lexEnd

/-! ## Operands -/

/-- Digits in a base, most significant first, continuing from `acc`. -/
def digits (base : Nat) : Nat → List Char → Option Nat
  | acc, [] => some acc
  | acc, c :: cs =>
    (hexDigit c).bind fun d => if d < base then digits base (base * acc + d) cs else none

/-- A decimal or `0x` hexadecimal number of at most 64 bits (R76). -/
def number (cs : List Char) : Option Word :=
  let value :=
    match cs with
    | [] => none
    | '0' :: 'x' :: [] => none
    | '0' :: 'x' :: ds => digits 16 0 ds
    | ds => digits 10 0 ds
  value.bind fun v => if v < 2 ^ 64 then some (BitVec.ofNat 64 v) else none

/-- One or more numbers with commas between. -/
def numberSeq : List Token → Option (List Word)
  | [.atom a] => (number a).map fun v => [v]
  | .atom a :: .comma :: rest => (number a).bind fun v => (numberSeq rest).map fun vs => v :: vs
  | _ => none

/-- A bracketed list of numbers, possibly empty. -/
def bracketed (opening closing : Token) (toks : List Token) : Option (List Word) :=
  match toks with
  | [] => none
  | t :: rest =>
    if t = opening ∧ rest.getLast? = some closing then
      if rest.dropLast = [] then some [] else numberSeq rest.dropLast
    else none

/-- A string operand: a quoted string or a byte list (R76). -/
def stringOperand (toks : List Token) : Option (List Byte) :=
  match toks with
  | [.text bytes] => some bytes
  | _ =>
    (bracketed .openSquare .closeSquare toks).bind fun vs =>
      if vs.all fun v => v.toNat < 256 then some (vs.map fun v => v.setWidth 8) else none

/-- `m, k` and an image in curly brackets (R76, R77). -/
def imageForm (toks : List Token) : Option (Word × Word × List Word) :=
  match toks with
  | .atom m :: .comma :: .atom k :: .comma :: img =>
    (number m).bind fun vm => (number k).bind fun vk =>
      (bracketed .openCurly .closeCurly img).map fun ws => (vm, vk, ws)
  | _ => none

/-! ## Lines -/

/-- The first word of a line (R76, R77). -/
inductive Mnemonic where
  | op (o : Opcode)
  | word
  | load
  | reinit
  deriving DecidableEq, Repr

/-- The mnemonics of R76 and R77, spelled. -/
def mnemonics : List (List Char × Mnemonic) :=
  [(['N', 'E', 'W'], .op .new),
   (['I', 'N', 'S', 'E', 'R', 'T'], .op .insert),
   (['C', 'O', 'N', 'T', 'A', 'I', 'N', 'S'], .op .contains),
   (['C', 'L', 'E', 'A', 'R'], .op .clear),
   (['U', 'N', 'I', 'O', 'N'], .op .union),
   (['C', 'L', 'O', 'N', 'E'], .op .clone),
   (['C', 'A', 'P', 'A', 'C', 'I', 'T', 'Y'], .op .capacity),
   (['K'], .op .k),
   (['D', 'E', 'R', 'I', 'V', 'E'], .op .derive),
   (['L', 'O', 'C', 'A', 'T', 'E'], .op .locate),
   (['.', 'w', 'o', 'r', 'd'], .word),
   (['L', 'O', 'A', 'D'], .load),
   (['D', 'E', 'F', 'A', 'U', 'L', 'T'], .reinit)]

/-- The operands of a command, by its opcode (R76). -/
def parseOperands (op : Opcode) (toks : List Token) : Option Instr :=
  match op with
  | .new =>
    match numberSeq toks with
    | some [m, k] => some (.new m k)
    | _ => none
  | .insert => (stringOperand toks).map .insert
  | .contains => (stringOperand toks).map .contains
  | .clear => if toks = [] then some .clear else none
  | .union => (imageForm toks).map fun p => .union p.1 p.2.1 p.2.2
  | .clone => if toks = [] then some .clone else none
  | .capacity => if toks = [] then some .capacity else none
  | .k => if toks = [] then some .k else none
  | .derive => (stringOperand toks).map .derive
  | .locate =>
    match numberSeq toks with
    | some [h0, h1, h2, h3, i, m] => some (.locate h0 h1 h2 h3 i m)
    | _ => none

/-- The line that a mnemonic and its operands stand for. -/
def parseLine (mn : Mnemonic) (toks : List Token) : Option AsmLine :=
  match mn with
  | .op o => (parseOperands o toks).map .command
  | .word =>
    match numberSeq toks with
    | some [v] => some (.word v)
    | _ => none
  | .load => (imageForm toks).map fun p => .load p.1 p.2.1 p.2.2
  | .reinit => if toks = [] then some .reinit else none

/-- Assemble one line. Every command of a line must fit its format, which for UNION and LOAD is
R76's check that the image has exactly `ceil_div(m, 64)` words. -/
def assembleLine (line : List Char) : Option AsmLine :=
  (lexLine line).bind fun toks =>
    match toks with
    | [] => some .blank
    | .atom a :: rest =>
      ((mnemonics.find? fun p => p.1 == a).bind fun p => parseLine p.2 rest).bind fun l =>
        if l.expand.all WellFormed then some l else none
    | _ => none

/-- The words of a program, one line after another. -/
def assembleLines : List (List Char) → Option (List Word)
  | [] => some []
  | line :: rest =>
    (assembleLine line).bind fun l => (assembleLines rest).map fun ws => l.words ++ ws

/-! ## Bit-pattern strings -/

/-- The store as a string of `0` and `1`, leftmost character index 0 (R56). -/
def State.pattern (s : State) : List Char :=
  (List.range s.M.toNat).map fun j => if s.memRead j = some true then '1' else '0'

end Sys2Proof.Machine
end

