-- ==== Sys2Proof/Machine/Run.lean ====
section
/-! DEFINITION. Runs of the block with its host, when a run is quiescent, and what of a run can be
observed (70_reset_and_hazards.md R241). A run is
a function of its list of events, so that it can be written out. -/

namespace Sys2Proof.Machine

/-- One event of a run: a step of the block, or one of the host's three actions (R40, R41, R230). -/
inductive Event where
  /-- the block takes one step -/
  | step
  /-- the host sends word `w` -/
  | send (w : Word)
  /-- the host takes the oldest response word -/
  | take
  /-- the host asserts the reset input -/
  | assertReset
  deriving DecidableEq, Repr

/-- A run so far: the response words the host has taken, oldest first, and the state reached. -/
structure Run where
  taken : List Word
  state : State
  deriving DecidableEq, Repr

/-- The run of a block with parameters `c` before any event. -/
def Run.start (c : Config) : Run := ⟨[], State.resetWith c⟩

/-- Replace the state reached. -/
def Run.setState (r : Run) (s : State) : Run := { r with state := s }

/-- The state after a step, where the block does not stop. -/
def State.stepNext (s : State) : Option State :=
  match step s with
  | .next t => some t
  | .fault _ => none
  | .refused _ => none

/-- The run with one event more. Nothing, where the host's action is not enabled. -/
def Run.extend (r : Run) (e : Event) : Option Run :=
  match e with
  | .step => r.state.stepNext.map r.setState
  | .send w => (r.state.hostSend w).map r.setState
  | .take => r.state.hostTake.map fun p => ⟨r.taken ++ [p.1], p.2⟩
  | .assertReset => some (r.setState r.state.hostReset)

/-- The run with the events `es` more, in order. -/
def Run.extendAll (r : Run) : List Event → Option Run
  | [] => some r
  | e :: es => (r.extend e).bind fun r' => r'.extendAll es

/-- The words the host sends in the events `es`, in order. -/
def sentWords : List Event → List Word
  | [] => []
  | .send w :: es => w :: sentWords es
  | .step :: es => sentWords es
  | .take :: es => sentWords es
  | .assertReset :: es => sentWords es

/-- A run that has reached `s` is quiescent (R241): no command word is untaken, and none is half received.
Every response has then been emitted, because a step emits the whole response of the command it performs.
DEDUCED (log entry 20): no reset is pending either, since `M`, `K` and `BITS` would not yet be final. -/
abbrev Quiescent (s : State) : Prop := s.cmdq = [] ∧ s.cmdbuf = [] ∧ s.rst = false

/-- The observable outcome of a run (R241). -/
structure Observed where
  /-- the sequence of response words -/
  responses : List Word
  /-- the final `M` -/
  M : Word
  /-- the final `K` -/
  K : Word
  /-- the final `BITS`, as the image words a final CLONE would read -/
  image : List Word
  deriving DecidableEq, Repr

/-- The state with a pending reset acted on. -/
def State.settled (s : State) : State := if s.rst then s.takeReset else s

/-- What is observed of a run (R241): the response words the host has taken, then those it can still take,
and the filter. DEDUCED (log entry 20): a pending reset counts as acted on, and words that reset discards
are no part of the sequence, so that the outcome does not say which of R231's two outcomes occurred. -/
def Run.outcome (r : Run) : Observed :=
  ⟨r.taken ++ r.state.settled.rspq, r.state.settled.M, r.state.settled.K, r.state.settled.imageWords⟩

end Sys2Proof.Machine
end

