-- ==== Sys2Proof/Safety.lean ====
section
/-! DEFINITION. What counts as a safe run, in the terms the statements use. -/

namespace Sys2Proof.Machine

/-- A step is safe when it answers a next state: KCORE-1 has no stop (60_exceptions.md R208). -/
def Safe (o : Host.Outcome State Fault Refusal) : Prop := ∃ t, o = .next t

/-- `cmdbuf` never holds more than the one command being received (10_state.md R29, R41). -/
def framed (ws : List Word) : Bool :=
  match commandLength? ws with
  | none => true
  | some n => ws.length ≤ n

/-- What holds in every state that a run reaches. -/
structure Inv (s : State) : Prop where
  /-- the parameters lie in their ranges (R6, R7) -/
  cfg_wf : s.cfg.wf
  /-- `1 <= M` (R20) -/
  m_pos : 1 ≤ s.M.toNat
  /-- `M <= M_MAX` (R20) -/
  m_le : s.M.toNat ≤ s.cfg.mMax.toNat
  /-- `1 <= K` (R21) -/
  k_pos : 1 ≤ s.K.toNat
  /-- the store has its canonical form -/
  bits_wf : s.BITS.wf
  /-- the store holds no bit at an index `>= M` (R28, R30) -/
  bits_lt : ∀ j ∈ s.BITS, j < s.M.toNat
  /-- at most one command is being received -/
  buf_framed : framed s.cmdbuf = true

/-- Nothing outside the filter and the response channel differs: the half-received command, the
command channel, the reset input and the parameters. -/
def SameInterface (s t : State) : Prop :=
  t.cmdbuf = s.cmdbuf ∧ t.cmdq = s.cmdq ∧ t.rst = s.rst ∧ t.cfg = s.cfg

/-- The two control registers are the same (R26). -/
def SameDims (s t : State) : Prop := t.M = s.M ∧ t.K = s.K

/-- The whole filter is the same: `M`, `K` and `BITS` (R20, R21, R22). -/
def SameFilter (s t : State) : Prop := SameDims s t ∧ t.BITS = s.BITS

/-- The words `rsp` were appended to the response channel (R41). -/
def Emits (s t : State) (rsp : List Word) : Prop := t.rspq = s.rspq ++ rsp

/-- The command only answers: everything but the response channel is as before. -/
def AnswersOnly (i : Instr) (s : State) (rsp : List Word) : Prop :=
  exec i s = .next { s with rspq := s.rspq ++ rsp }

/-- Perform the commands in order, each on the state the one before it left:
`S(n+1) = exec(c_n, S_n)` (R49). -/
def performAll : List Instr → State → Host.Outcome State Fault Refusal
  | [], s => .next s
  | i :: rest, s =>
    match exec i s with
    | .next t => performAll rest t
    | .fault r => .fault r
    | .refused r => .refused r

/-- The states of the runs of a block with parameters `c` under every host: the host sends, takes
and resets when it likes, and the block steps in between (R40, R41, R230). -/
inductive Reachable (c : Config) : State → Prop
  | reset : Reachable c (State.resetWith c)
  | step {s t : State} : Reachable c s → step s = .next t → Reachable c t
  | send {s t : State} {w : Word} : Reachable c s → s.hostSend w = some t → Reachable c t
  | take {s t : State} {w : Word} : Reachable c s → s.hostTake = some (w, t) → Reachable c t
  | assertReset {s : State} : Reachable c s → Reachable c s.hostReset

end Sys2Proof.Machine
end

