-- ==== Sys2Proof/Certificates/Slice0/Obligations.lean ====
section
/-! DEFINITION. The statements about the model, for the provers. Each docstring names the rule of
spec/ it formalises. `memRead` is `MemRead(j, 1)` of R11: `some b` for `j < M`, `none` elsewhere. -/

open Sys2Proof Sys2Proof.Machine

/-! ## Encoding -/

/-- R78: the five example commands, read and written. -/
def Obligations.ExampleCommandsDecodeAndEncode : Prop :=
  ∀ p ∈ ([(.new 32 3, [0x0000000000000001, 0x0000000000000020, 0x0000000000000003]),
      (.insert [0x68, 0x65, 0x6C, 0x6C, 0x6F], [0x0000000000000002, 0x0000000000000005, 0x0000006F6C6C6568]),
      (.contains [0x66, 0x6F, 0x6F], [0x0000000000000003, 0x0000000000000003, 0x00000000006F6F66]),
      (.insert [], [0x0000000000000002, 0x0000000000000000]),
      (.union 32 3 [0x20200002],
        [0x0000000000000005, 0x0000000000000020, 0x0000000000000003, 0x0000000020200002])] :
      List (Instr × List Word)),
    decode p.2 = .command p.1 [] ∧ encode p.1 = p.2

/-- R62: exactly the headers with OPC `0x01 .. 0x0A` and RSVD zero are legal, and the opcode read from
a legal header is the one with that OPC value. -/
def Obligations.HeaderLegalIffAssignedAndReservedZero : Prop :=
  ∀ w0 : Word,
    ((decodeHeader w0).isSome = true ↔
      1 ≤ (w0.extractLsb' 0 8).toNat ∧ (w0.extractLsb' 0 8).toNat ≤ 10 ∧ w0.extractLsb' 8 56 = 0) ∧
    (∀ op, decodeHeader w0 = some op → w0.extractLsb' 0 8 = op.code)

/-- R73: the number of words the decoder consumes, per header class. With fewer words it answers
that the command is not complete. -/
def Obligations.CommandLengthPerFormat : Prop :=
  (∀ (w0 : Word) (rest : List Word), decodeHeader w0 = none →
    decode (w0 :: rest) = .illegal w0 rest) ∧
  ∀ (ws : List Word) (op : Opcode), ws ≠ [] → decodeHeader (wordAt ws 0) = some op →
    let n := match op with
      | .clear | .clone | .capacity | .k => 1
      | .new => 3
      | .locate => 7
      | .insert | .contains | .derive => 2 + ceilDiv (wordAt ws 1).toNat 8
      | .union => 3 + ceilDiv (wordAt ws 1).toNat 64
    (ws.length < n → decode ws = .incomplete) ∧
    (n ≤ ws.length → ∃ i, i.opcode = op ∧ decode ws = .command i (ws.drop n))

/-- R68: the bytes of a data string, for the three format D commands. Byte `j` is bits
`[8*(j mod 8) + 7 : 8*(j mod 8)]` of data word `j / 8`; nothing else of the words enters the command,
so padding bytes have no effect. -/
def Obligations.DataBytesAreLittleEndianInWords : Prop :=
  ∀ (len : Word) (words rest : List Word), words.length = ceilDiv len.toNat 8 →
    ∃ data : List Byte, data.length = len.toNat ∧
      (∀ j < len.toNat, data[j]? = some ((words.getD (j / 8) 0).extractLsb' (8 * (j % 8)) 8)) ∧
      decode (0x02 :: len :: (words ++ rest)) = .command (.insert data) rest ∧
      decode (0x03 :: len :: (words ++ rest)) = .command (.contains data) rest ∧
      decode (0x09 :: len :: (words ++ rest)) = .command (.derive data) rest

/-- The data words `ws` carry the bytes of `data` (R67, R68). Padding bytes of the last word are free. -/
def CarryBytes (ws : List Word) (data : List Byte) : Prop :=
  ws.length = ceilDiv data.length 8 ∧
  ∀ (j : Nat) (h : j < data.length), (ws.getD (j / 8) 0).extractLsb' (8 * (j % 8)) 8 = data[j]

/-- R70: two UNION commands whose image words agree on the bits `j < m_o` do the same in every
state: padding bits are ignored. -/
def Obligations.UnionIgnoresImagePadding : Prop :=
  ∀ (mO kO : Word) (ws ws' rest : List Word), ws.length = ceilDiv mO.toNat 64 → ws'.length = ws.length →
    (∀ j < mO.toNat, (ws.getD (j / 64) 0).getLsbD (j % 64) = (ws'.getD (j / 64) 0).getLsbD (j % 64)) →
    ∃ i i', decode (0x05 :: mO :: kO :: (ws ++ rest)) = .command i rest ∧
      decode (0x05 :: mO :: kO :: (ws' ++ rest)) = .command i' rest ∧ ∀ s, exec i s = exec i' s

/-- Headline (a): decoding the words of any well-formed command, whatever words follow, gives that
command back and leaves exactly the words that follow. -/
def Obligations.DecodeOfEncodeIsTheCommand : Prop :=
  ∀ (i : Instr) (rest : List Word), WellFormed i = true → decode (encode i ++ rest) = .command i rest

/-- Whatever words the decoder reads a command from, the command is well-formed and has the header's
opcode, and but for the padding of data strings the words are those the encoder writes. -/
def Obligations.DecodedCommandIsWellFormed : Prop :=
  ∀ (ws rest : List Word) (i : Instr), decode ws = .command i rest →
    WellFormed i = true ∧ wordAt ws 0 = i.opcode.header ∧
    ws.length = (encode i).length + rest.length ∧
    (i.opcode.format ≠ .D → ws = encode i ++ rest)

/-! ## NEW -/

/-- R150, R151, R152: NEW, as its words say it, clamps, then either builds the empty filter or answers
CAPACITY_EXCEEDED and changes nothing. -/
def Obligations.NewBuildsEmptyFilterOrRefuses : Prop :=
  ∀ (mReq kReq : Word) (s : State),
    (∀ rest, decode (0x01 :: mReq :: kReq :: rest) = .command (.new mReq kReq) rest) ∧
    (max mReq.toNat 1 ≤ s.cfg.mMax.toNat →
      ∃ t, exec (.new mReq kReq) s = .next t ∧ t.M.toNat = max mReq.toNat 1 ∧ t.K.toNat = max kReq.toNat 1 ∧
        (∀ j < max mReq.toNat 1, t.memRead j = some false) ∧ Emits s t [0x0000000000000100] ∧
        SameInterface s t) ∧
    (s.cfg.mMax.toNat < max mReq.toNat 1 →
      AnswersOnly (.new mReq kReq) s
        [0x0000000000000103, BitVec.ofNat 64 (max mReq.toNat 1), s.cfg.mMax])

/-! ## INSERT -/

/-- R155: INSERT sets the `K` probed bits, at the addresses `locate(derive(s), i, M)`, and leaves every
other bit, `M` and `K` unchanged; a string longer than `L_MAX` is refused with INVALID_OPERAND. -/
def Obligations.InsertSetsExactlyTheProbedBits : Prop :=
  ∀ (data : List Byte) (s : State),
    (∀ ws rest, data.length < 2 ^ 64 → CarryBytes ws data →
      decode (0x02 :: BitVec.ofNat 64 data.length :: (ws ++ rest)) = .command (.insert data) rest) ∧
    (1 ≤ s.M.toNat → data.length ≤ s.cfg.lMax.toNat →
      ∃ t, exec (.insert data) s = .next t ∧
        (∀ i < s.K.toNat,
          t.memRead (locate (deriveWords s.cfg.hash data) (BitVec.ofNat 64 i) s.M).toNat = some true) ∧
        (∀ j, (∀ i < s.K.toNat, (locate (deriveWords s.cfg.hash data) (BitVec.ofNat 64 i) s.M).toNat ≠ j) →
          t.memRead j = s.memRead j) ∧
        SameDims s t ∧ Emits s t [0x0000000000000200] ∧ SameInterface s t) ∧
    (s.cfg.lMax.toNat < data.length →
      AnswersOnly (.insert data) s [0x0000000000000204, BitVec.ofNat 64 data.length])

/-- R156: INSERT clears no bit, the second INSERT of a string changes no bit, and two INSERTs
commute. The stores are equal as data, which needs the canonical form of `BITS`. -/
def Obligations.InsertIsMonotoneIdempotentCommutative : Prop :=
  ∀ (x y : List Byte) (s sx sxx sxy sy syx : State), s.BITS.wf →
    exec (.insert x) s = .next sx → exec (.insert x) sx = .next sxx → exec (.insert y) sx = .next sxy →
    exec (.insert y) s = .next sy → exec (.insert x) sy = .next syx →
    (∀ j, s.memRead j = some true → sx.memRead j = some true) ∧ sxx.BITS = sx.BITS ∧ sxy.BITS = syx.BITS

/-! ## CONTAINS -/

/-- R160: CONTAINS answers 1 exactly when every probed bit is 1, writes nothing, and refuses a string
longer than `L_MAX`. -/
def Obligations.ContainsTestsEveryProbedBit : Prop :=
  ∀ (data : List Byte) (s : State),
    (∀ ws rest, data.length < 2 ^ 64 → CarryBytes ws data →
      decode (0x03 :: BitVec.ofNat 64 data.length :: (ws ++ rest)) = .command (.contains data) rest) ∧
    (1 ≤ s.M.toNat → data.length ≤ s.cfg.lMax.toNat →
      ∃ b : Bool, AnswersOnly (.contains data) s [0x0000000000000300, if b then 1 else 0] ∧
        (b = true ↔ ∀ i < s.K.toNat,
          s.memRead (locate (deriveWords s.cfg.hash data) (BitVec.ofNat 64 i) s.M).toNat = some true)) ∧
    (s.cfg.lMax.toNat < data.length →
      AnswersOnly (.contains data) s [0x0000000000000304, BitVec.ofNat 64 data.length])

/-- R162, for every `Hash128`: after an INSERT of `x` within `L_MAX`, every later CONTAINS `x` answers 1,
whatever commands other than NEW and CLEAR come between. No reset comes between: `performAll` has none. -/
def Obligations.NoFalseNegatives : Prop :=
  ∀ (x : List Byte) (between : List Instr) (s t u : State), Inv s → x.length ≤ s.cfg.lMax.toNat →
    exec (.insert x) s = .next t →
    (∀ c ∈ between, c ≠ .clear ∧ ∀ m k, c ≠ .new m k) → performAll between t = .next u →
    AnswersOnly (.contains x) u [0x0000000000000300, 1]

/-- R166: after CLEAR, as long as no INSERT and no UNION whose image has a bit set comes between,
CONTAINS answers 0 for every string within `L_MAX`. -/
def Obligations.NothingContainedAfterClear : Prop :=
  ∀ (x : List Byte) (between : List Instr) (s t u : State), Inv s → x.length ≤ s.cfg.lMax.toNat →
    exec .clear s = .next t →
    (∀ c ∈ between, (∀ d, c ≠ .insert d) ∧
      ∀ m k img, c = .union m k img → ∀ j < m.toNat, (img.getD (j / 64) 0).getLsbD (j % 64) = false) →
    performAll between t = .next u →
    AnswersOnly (.contains x) u [0x0000000000000300, 0]

/-- The corner cases of R155 and R160 at `M = 1`: every INSERT sets bit 0, and CONTAINS answers
bit 0, whatever the string. -/
def Obligations.OneBitFilterHoldsEverything : Prop :=
  ∀ (x y : List Byte) (s : State), s.M = 1 → 1 ≤ s.K.toNat → x.length ≤ s.cfg.lMax.toNat →
    y.length ≤ s.cfg.lMax.toNat →
    (∃ t, exec (.insert x) s = .next t ∧ t.memRead 0 = some true ∧
      AnswersOnly (.contains y) t [0x0000000000000300, 1]) ∧
    (s.memRead 0 = some false → AnswersOnly (.contains y) s [0x0000000000000300, 0])

/-! ## CLEAR -/

/-- R165: CLEAR sets every bit to 0 and keeps `M` and `K`. -/
def Obligations.ClearZeroesEveryBit : Prop :=
  (∀ rest, decode (0x04 :: rest) = .command .clear rest) ∧
  ∀ s : State, ∃ t, exec .clear s = .next t ∧ (∀ j < s.M.toNat, t.memRead j = some false) ∧
    SameDims s t ∧ Emits s t [0x0000000000000400] ∧ SameInterface s t

/-- `for j in 0 .. n: MemWrite(j, 1, 0)`, the loop of R165's pseudocode. -/
def zeroLoop (s : State) : Nat → Option State
  | 0 => some s
  | n + 1 => (zeroLoop s n).bind fun t => t.memWrite n false

/-- The model writes CLEAR's and NEW's zeroing as one assignment (log entry 12); it is the loop of
bit writes over the whole store that R165 gives. -/
def Obligations.ZeroingIsTheLoopOfBitWrites : Prop :=
  ∀ s : State, (∀ j ∈ s.BITS, j < s.M.toNat) →
    ∃ t, zeroLoop s s.M.toNat = some t ∧ exec .clear s = .next (t.respond .clear [])

/-! ## UNION -/

/-- R170, R171, R172: UNION ORs the image into the store when the dimensions match; otherwise it
answers DIMENSION_MISMATCH, `m` before `k`, and changes nothing. -/
def Obligations.UnionOrsOrReportsMismatch : Prop :=
  ∀ (mO kO : Word) (img : List Word) (s : State),
    (img.length = ceilDiv mO.toNat 64 → ∀ rest,
      decode (0x05 :: mO :: kO :: (img ++ rest)) = .command (.union mO kO img) rest) ∧
    (s.M = mO → s.K = kO →
      ∃ t, exec (.union mO kO img) s = .next t ∧
        (∀ j b, s.memRead j = some b → t.memRead j = some (b || (img.getD (j / 64) 0).getLsbD (j % 64))) ∧
        SameDims s t ∧ Emits s t [0x0000000000000500] ∧ SameInterface s t) ∧
    (s.M ≠ mO → AnswersOnly (.union mO kO img) s [0x0000000000000501, s.M, mO]) ∧
    (s.M = mO → s.K ≠ kO → AnswersOnly (.union mO kO img) s [0x0000000000010501, s.K, kO])

/-- R173: uniting images in either order gives the same store, uniting one twice is uniting it once,
and uniting two one after the other is uniting their OR. -/
def Obligations.UnionIsAssociativeCommutativeIdempotent : Prop :=
  ∀ (a b ab : List Word) (s sa saa sab sb sba sc : State), s.BITS.wf →
    (∀ j, (ab.getD (j / 64) 0).getLsbD (j % 64) =
      ((a.getD (j / 64) 0).getLsbD (j % 64) || (b.getD (j / 64) 0).getLsbD (j % 64))) →
    exec (.union s.M s.K a) s = .next sa → exec (.union s.M s.K a) sa = .next saa →
    exec (.union s.M s.K b) sa = .next sab → exec (.union s.M s.K b) s = .next sb →
    exec (.union s.M s.K a) sb = .next sba → exec (.union s.M s.K ab) s = .next sc →
    saa.BITS = sa.BITS ∧ sab.BITS = sba.BITS ∧ sab.BITS = sc.BITS

/-- R173, union correctness: after a UNION with the image of filter `o`, of the same dimensions and
hash, everything that this filter or `o` contained before is contained. -/
def Obligations.UnionKeepsMembershipOfBoth : Prop :=
  ∀ (x : List Byte) (s o t : State), Inv s → o.M = s.M → o.K = s.K → o.cfg = s.cfg →
    exec (.union o.M o.K o.imageWords) s = .next t →
    AnswersOnly (.contains x) s [0x0000000000000300, 1] ∨ AnswersOnly (.contains x) o [0x0000000000000300, 1] →
    AnswersOnly (.contains x) t [0x0000000000000300, 1]

/-! ## CLONE, CAPACITY, K -/

/-- R72, R175: CLONE answers the image of the filter, bit `j` in image word `j / 64` at bit `j mod 64`,
every bit past `M` zero, and writes nothing. -/
def Obligations.CloneAnswersTheImage : Prop :=
  (∀ rest, decode (0x06 :: rest) = .command .clone rest) ∧
  ∀ s : State, ∃ img : List Word,
    AnswersOnly .clone s (0x0000000000000600 :: s.M :: s.K :: img) ∧ img.length = ceilDiv s.M.toNat 64 ∧
    ∀ j < 64 * img.length, (img.getD (j / 64) 0).getLsbD (j % 64) = decide (s.memRead j = some true)

/-- R176: the image a CLONE answers, loaded into any other block instance `r` that can hold it, makes
an identical filter there: the same `M`, `K` and `BITS`, the same later CLONE response, and under the
same hash and `L_MAX` the same answer to every CONTAINS. -/
def Obligations.CloneImageLoadsToIdenticalFilter : Prop :=
  ∀ (s r : State) (img : List Word), Inv s → s.M.toNat ≤ r.cfg.mMax.toNat →
    AnswersOnly .clone s (0x0000000000000600 :: s.M :: s.K :: img) →
    ∃ u, performAll [.new s.M s.K, .union s.M s.K img] r = .next u ∧
      Emits r u [0x0000000000000100, 0x0000000000000500] ∧ SameFilter s u ∧
      AnswersOnly .clone u (0x0000000000000600 :: s.M :: s.K :: img) ∧
      (r.cfg.hash = s.cfg.hash → r.cfg.lMax = s.cfg.lMax → ∀ x rsp,
        AnswersOnly (.contains x) s rsp → AnswersOnly (.contains x) u rsp)

/-- R170's corner case: a filter united with its own CLONE changes no bit. -/
def Obligations.UnionWithOwnCloneChangesNothing : Prop :=
  ∀ s : State, Inv s → AnswersOnly (.union s.M s.K s.imageWords) s [0x0000000000000500]

/-- R180, R181: CAPACITY answers `M` and K answers `K`, and neither writes anything. Right after a NEW
that completes they answer its clamped operands. -/
def Obligations.CapacityAndKReadTheRegisters : Prop :=
  (∀ rest, decode (0x07 :: rest) = .command .capacity rest ∧ decode (0x08 :: rest) = .command .k rest) ∧
  (∀ s : State, AnswersOnly .capacity s [0x0000000000000700, s.M] ∧ AnswersOnly .k s [0x0000000000000800, s.K]) ∧
  ∀ (m k : Word) (s : State), max m.toNat 1 ≤ s.cfg.mMax.toNat →
    ∃ t, performAll [.new m k, .capacity, .k] s = .next t ∧
      Emits s t [0x0000000000000100, 0x0000000000000700, BitVec.ofNat 64 (max m.toNat 1),
        0x0000000000000800, BitVec.ofNat 64 (max k.toNat 1)]

/-- R77: LOAD leaves the block with exactly the filter of the image, when `1 <= m <= M_MAX` and
`k >= 1`, and DEFAULT leaves the filter of reset. -/
def Obligations.LoadAndDefaultBuildTheirFilters : Prop :=
  (∀ (m k : Word) (img : List Word) (s : State), 1 ≤ m.toNat → m.toNat ≤ s.cfg.mMax.toNat → 1 ≤ k.toNat →
    img.length = ceilDiv m.toNat 64 →
    ∃ t, performAll (AsmLine.load m k img).expand s = .next t ∧ t.M = m ∧ t.K = k ∧
      (∀ j < m.toNat, t.memRead j = some ((img.getD (j / 64) 0).getLsbD (j % 64))) ∧
      Emits s t [0x0000000000000100, 0x0000000000000500] ∧ SameInterface s t) ∧
  ∀ s : State, 1 ≤ s.cfg.mMax.toNat →
    ∃ t, performAll AsmLine.reinit.expand s = .next t ∧ SameFilter State.reset t ∧
      Emits s t [0x0000000000000100] ∧ SameInterface s t

/-! ## DERIVE and the hash -/

/-- R100, R101, R102, R108: DERIVE answers the low and high halves of the two digests, in the order
`h1_low, h1_high, h2_low, h2_high`, and refuses a string longer than `L_MAX`. It holds for every
`Hash128` a block may be built with (R107). -/
def Obligations.DeriveAnswersTheFourHalves : Prop :=
  ∀ (data : List Byte) (s : State),
    (∀ ws rest, data.length < 2 ^ 64 → CarryBytes ws data →
      decode (0x09 :: BitVec.ofNat 64 data.length :: (ws ++ rest)) = .command (.derive data) rest) ∧
    (data.length ≤ s.cfg.lMax.toNat →
      AnswersOnly (.derive data) s
        [0x0000000000000900,
         (hash128 s.cfg.hash data).extractLsb' 0 64,
         (hash128 s.cfg.hash data).extractLsb' 64 64,
         (hash128 s.cfg.hash (data ++ [0x01])).extractLsb' 0 64,
         (hash128 s.cfg.hash (data ++ [0x01])).extractLsb' 64 64]) ∧
    (s.cfg.lMax.toNat < data.length →
      AnswersOnly (.derive data) s [0x0000000000000904, BitVec.ofNat 64 data.length])

/-- R104's `LE64`: at most eight bytes, little-endian, zero-extended at the top. -/
def Obligations.LittleEndianWordIsWeightedSum : Prop :=
  ∀ bs : List Byte, bs.length ≤ 8 →
    (le64 bs).toNat = (bs.zipIdx.map fun p => p.1.toNat * 2 ^ (8 * p.2)).sum

/-- R104, R105, R106: the default hash of a string of `n` whole blocks `p`, one more block `lo ++ hi` and
a tail. The blocks are absorbed in order, each from its own 16 bytes only and the last one last,
then the tail, then the finalization over the whole length. -/
def Obligations.HashAbsorbsWholeBlocksInOrder : Prop :=
  ∀ (n : Nat) (p lo hi tail : List Byte), p.length = 16 * n → lo.length = 8 → hi.length = 8 → tail.length < 16 →
    hash128 .murmur3 (p ++ lo ++ hi ++ tail) =
      murmurFinal (16 * n + 16 + tail.length)
        (murmurTail tail (murmurBlock (murmurBody p ⟨0, 0⟩ n) (le64 lo) (le64 hi)))

/-- R105, R106: the default hash of a string shorter than one block. The empty string hashes to 0; up
to 8 bytes only the `k1` part runs; from 9 to 15 both parts run, `k2` over bytes 8 and up. -/
def Obligations.HashOfShortStringUsesTailOnly : Prop :=
  hash128 .murmur3 [] = 0 ∧
  (∀ s : List Byte, 1 ≤ s.length → s.length ≤ 8 →
    hash128 .murmur3 s = murmurFinal s.length ⟨mixK1 (le64 s), 0⟩) ∧
  (∀ lo hi : List Byte, lo.length = 8 → 1 ≤ hi.length → hi.length ≤ 7 →
    hash128 .murmur3 (lo ++ hi) = murmurFinal (8 + hi.length) ⟨mixK1 (le64 lo), mixK2 (le64 hi)⟩)

/-! ## LOCATE -/

/-- R130 to R134, R136: LOCATE answers the index formula of R130, whose selector is the one of R132's table,
and refuses `m = 0`. -/
def Obligations.LocateFollowsTheProbeFormula : Prop :=
  ∀ (h0 h1 h2 h3 i m : Word) (s : State),
    (∀ rest, decode (0x0A :: h0 :: h1 :: h2 :: h3 :: i :: m :: rest) =
      .command (.locate h0 h1 h2 h3 i m) rest) ∧
    (m ≠ 0 →
      ∃ r : Word, AnswersOnly (.locate h0 h1 h2 h3 i m) s [0x0000000000000A00, r] ∧ r.toNat < m.toNat ∧
        (let h := [h0, h1, h2, h3]
         let base := h.getD (i.toNat % 2) 0
         let selector := 2 + ((i.toNat + i.toNat % 2) % 4) / 2
         let mixer := h.getD selector 0
         selector = (if i.toNat % 4 = 0 ∨ i.toNat % 4 = 3 then 2 else 3) ∧
         r.toNat = ((base.toNat + (i.toNat * mixer.toNat) % 2 ^ 64) % 2 ^ 64) % m.toNat)) ∧
    (m = 0 → AnswersOnly (.locate h0 h1 h2 h3 i m) s [0x0000000000010A04])

/-- The corner cases of R138 that LOCATE shows: `m = 1`, `i = 0`, the zero hash vector, and the largest
modulus `2^64 - 1`. -/
def Obligations.LocateCornerCases : Prop :=
  ∀ (h0 h1 h2 h3 i m : Word) (s : State),
    AnswersOnly (.locate h0 h1 h2 h3 i 1) s [0x0000000000000A00, 0] ∧
    (m ≠ 0 → AnswersOnly (.locate h0 h1 h2 h3 0 m) s [0x0000000000000A00, h0 % m]) ∧
    (m ≠ 0 → AnswersOnly (.locate 0 0 0 0 i m) s [0x0000000000000A00, 0]) ∧
    AnswersOnly (.locate h0 h1 h2 h3 i 0xFFFFFFFFFFFFFFFF) s
      [0x0000000000000A00,
       if combined ⟨h0, h1, h2, h3⟩ i = 0xFFFFFFFFFFFFFFFF then 0 else combined ⟨h0, h1, h2, h3⟩ i]

/-! ## Responses and errors -/

/-- R83, with R60 and R80: every command appends exactly one response, and the host can tell its length. It echoes the command's opcode,
its bits `[63:24]` are zero, its STATUS is one of the codes a command may have, and its length is the
one the host reads from `RSP0` and `RSP1`; so is the one word that answers an illegal header. -/
def Obligations.EveryResponseTellsItsLength : Prop :=
  (∀ (i : Instr) (s t : State), exec i s = .next t →
    ∃ (rsp0 : Word) (payload : List Word), Emits s t (rsp0 :: payload) ∧
      rsp0.extractLsb' 8 8 = i.opcode.code ∧ rsp0 >>> 24 = 0 ∧
      (rsp0.extractLsb' 0 8).toNat ∈ [0, 1, 3, 4] ∧
      responseLength? rsp0 (payload.getD 0 0) = some (1 + payload.length)) ∧
  ∀ w0 next : Word, responseLength? (BitVec.ofNat 64 (256 * (w0.toNat % 256) + 2)) next = some 1

/-- R205: an error response leaves `M`, `K` and `BITS` exactly as before the command. -/
def Obligations.ErrorsChangeNoState : Prop :=
  ∀ (i : Instr) (s t : State) (rsp0 : Word) (payload : List Word), exec i s = .next t →
    Emits s t (rsp0 :: payload) → rsp0.extractLsb' 0 8 ≠ 0 → SameFilter s t ∧ SameInterface s t

/-- R63, R204: an illegal header is a command of one word. The step performs nothing, changes neither
`M`, `K` nor `BITS`, answers ILLEGAL_COMMAND with `W0[7:0]` echoed and no payload, and the words after
it stay to be read as a new header. -/
def Obligations.IllegalHeaderIsAnsweredAlone : Prop :=
  ∀ (s : State) (w0 : Word) (rest : List Word), s.rst = false → s.cmdbuf = w0 :: rest →
    ¬ (1 ≤ (w0.extractLsb' 0 8).toNat ∧ (w0.extractLsb' 0 8).toNat ≤ 10 ∧ w0.extractLsb' 8 56 = 0) →
    step s = .next { s with
      cmdbuf := rest
      rspq := s.rspq ++ [BitVec.ofNat 64 (256 * (w0.toNat % 256) + 2)] }

/-- R47, the read-only commands: CONTAINS, CLONE, CAPACITY, K, DERIVE and LOCATE change nothing but the
response channel, and INSERT, CLEAR and UNION leave `M` and `K` alone. No command touches the
half-received command, the command channel, the reset input or the parameters. -/
def Obligations.OnlyTheNamedWritersWrite : Prop :=
  ∀ (i : Instr) (s t : State), exec i s = .next t →
    SameInterface s t ∧
    ((∀ m k, i ≠ .new m k) → SameDims s t) ∧
    (i.opcode = .contains ∨ i.opcode = .clone ∨ i.opcode = .capacity ∨ i.opcode = .k ∨
      i.opcode = .derive ∨ i.opcode = .locate → SameFilter s t)

/-- R27: between two NEW commands `M` and `K` do not change, whatever commands run. -/
def Obligations.DimensionsFixedBetweenNews : Prop :=
  ∀ (cs : List Instr) (s t : State), (∀ c ∈ cs, ∀ m k, c ≠ .new m k) →
    performAll cs s = .next t → SameDims s t

/-- R49: what a command does to the filter and what it answers depend only on the command, the filter
and the parameters, and not on earlier responses or on words still on the command channel. -/
def Obligations.ResponseDependsOnCommandAndFilterOnly : Prop :=
  ∀ (i : Instr) (s s' t : State), SameFilter s s' → s'.cfg = s.cfg → exec i s = .next t →
    ∃ (t' : State) (rsp : List Word), exec i s' = .next t' ∧ SameFilter t t' ∧
      Emits s t rsp ∧ Emits s' t' rsp

/-! ## The bitset store -/

/-- The two primitives of R11 on the store of R34: within `0 .. M-1` a read after a write gives the bit
written there and the old bit elsewhere, and the canonical form is kept; outside neither is defined. -/
def Obligations.BitReadAfterBitWrite : Prop :=
  ∀ (s : State) (j : Nat) (b : Bool),
    (j < s.M.toNat → ∃ t, s.memWrite j b = some t ∧ t.memRead j = some b ∧
      (∀ x, x ≠ j → t.memRead x = s.memRead x) ∧ (s.BITS.wf → t.BITS.wf) ∧
      SameDims s t ∧ SameInterface s t) ∧
    (s.M.toNat ≤ j → s.memWrite j b = none ∧ s.memRead j = none)

/-- Canonical stores of equal length that read alike are equal data, so comparing two states
compares their filters. -/
def Obligations.EqualReadsMeanEqualStores : Prop :=
  ∀ s t : State, Inv s → Inv t → t.M = s.M → (∀ j, t.memRead j = s.memRead j) → t.BITS = s.BITS

/-! ## The step, the channels and reset -/

/-- When the words received decode to a command, the step is `exec` of that command on the state with
those words taken out of `cmdbuf`; in particular for the words of any well-formed command. -/
def Obligations.StepPerformsTheDecodedCommand : Prop :=
  (∀ (s : State) (i : Instr) (rest : List Word), s.rst = false → decode s.cmdbuf = .command i rest →
    step s = exec i { s with cmdbuf := rest }) ∧
  ∀ (s : State) (i : Instr), s.rst = false → WellFormed i = true → s.cmdbuf = encode i →
    step s = exec i { s with cmdbuf := [] }

/-- R41, R216: while the command is not complete the block takes one word from the command channel into
`cmdbuf`, and with the channel empty it is idle and holds its state. One word a step is the model's
granularity (log entry 6). -/
def Obligations.IncompleteCommandTakesOneWord : Prop :=
  ∀ s : State, s.rst = false → decode s.cmdbuf = .incomplete →
    (∀ w q, s.cmdq = w :: q → step s = .next { s with cmdbuf := s.cmdbuf ++ [w], cmdq := q }) ∧
    (s.cmdq = [] → step s = .next s)

/-- R40: a step neither drops, duplicates nor reorders a word of either channel. The words received and
those still on the channel stay in order but for one whole command taken from the front, and responses
only join the end of the response channel. The host's own two actions are at the far ends. -/
def Obligations.ChannelsLoseAndReorderNothing : Prop :=
  (∀ s t : State, s.rst = false → step s = .next t →
    (∃ rsp, Emits s t rsp) ∧
    (t.cmdbuf ++ t.cmdq = s.cmdbuf ++ s.cmdq ∨
      ∃ n, commandLength? s.cmdbuf = some n ∧ n ≤ s.cmdbuf.length ∧
        t.cmdbuf ++ t.cmdq = (s.cmdbuf ++ s.cmdq).drop n)) ∧
  (∀ (s t : State) (w : Word), s.hostSend w = some t → t = { s with cmdq := s.cmdq ++ [w] }) ∧
  (∀ (s t : State) (w : Word), s.hostTake = some (w, t) → s.rspq = w :: t.rspq ∧ t = { s with rspq := t.rspq })

/-- R33, R232: the step on an asserted reset input gives the reset state, from every state; a block out of
reset holds the same values; and `NEW 0, 0` leaves the same filter. -/
def Obligations.ResetGivesTheResetState : Prop :=
  (∀ s : State, s.rst = true →
    ∃ t, step s = .next t ∧ t.M = 1 ∧ t.K = 1 ∧ t.memRead 0 = some false ∧ (∀ j, 1 ≤ j → t.memRead j = none) ∧
      t.cmdbuf = [] ∧ t.rspq = [] ∧ t.cfg = s.cfg) ∧
  (State.reset.M = 1 ∧ State.reset.K = 1 ∧ State.reset.memRead 0 = some false ∧ State.reset.cmdbuf = [] ∧
    State.reset.rspq = []) ∧
  ∀ s t : State, 1 ≤ s.cfg.mMax.toNat → exec (.new 0 0) s = .next t → SameFilter State.reset t

/-- R231: reset that arrives while a command is being performed. Whether the command took effect
wholly or not at all, the state after the reset is the same, so the model admits both. That reset empties
the command channel too is the model's reading (log entry 3), and that the step which acts on the reset
input clears it is the model's choice (log entry 4). -/
def Obligations.ResetOutcomeSameWhetherCommandRan : Prop :=
  ∀ s t : State, step s = .next t →
    ∃ u, step s.hostReset = .next u ∧ step t.hostReset = .next u ∧ u.cmdq = [] ∧ u.rst = false

/-- Headline (b), its base: the invariant holds after reset, for every legal choice of parameters. -/
def Obligations.InvariantHoldsAfterReset : Prop :=
  (∀ c : Config, c.wf → Inv (State.resetWith c)) ∧ Inv State.reset

/-- Headline (b): every step keeps the invariant: `1 <= M <= M_MAX`, `1 <= K`, `BITS` canonical and within
`0 .. M-1`, at most one command in `cmdbuf`. -/
def Obligations.EveryStepKeepsTheInvariant : Prop :=
  ∀ s t : State, Inv s → step s = .next t → Inv t

/-- From every state that meets the invariant every command answers a next state, and so does the step:
the block never stops (R208). -/
def Obligations.NoCommandStopsTheBlock : Prop :=
  ∀ s : State, Inv s → Safe (step s) ∧ ∀ i : Instr, Safe (exec i s)

/-- Under every host, every state a run reaches meets the invariant and keeps the parameters. -/
def Obligations.EveryReachableStateMeetsTheInvariant : Prop :=
  ∀ (c : Config) (s : State), c.wf → Reachable c s → Inv s ∧ s.cfg = c

/-- R41 and R49 together, as a run: from an idle block with the words of any well-formed commands at the
front of the command channel, one step a word and one step a command perform exactly those commands,
in order, each on the state the one before left, and later words stay on the channel. That a word taken
and a command performed are one step each is the model's granularity (log entry 6). -/
def Obligations.SentCommandsArePerformedInOrder : Prop :=
  ∀ (cs : List Instr) (later : List Word) (s : State), (∀ c ∈ cs, WellFormed c = true) →
    s.rst = false → s.cmdbuf = [] → s.cmdq = cs.flatMap encode ++ later →
    Sys2Proof.core.run (cs.map fun c => (encode c).length + 1).sum s = performAll cs { s with cmdq := later }

/-! ## Runs and what is observed of them -/

/-- R241, R49: from a quiescent run, let the host send the words of any well-formed commands and then, perhaps,
the first words of one more, and let sends, takes and steps of the block come in any order. Once the block has
taken every word and performed what is complete, the outcome is that of performing those commands in order.
When and how often the host took words, and how often the block stalled, is not in it, and the incomplete
command has no response. With no words of a further command the run is quiescent at its end. -/
def Obligations.OutcomeIsThatOfTheCommandsSent : Prop :=
  ∀ (r r' : Run) (es : List Event) (cs : List Instr) (c : Instr) (n : Nat), Quiescent r.state →
    (∀ i ∈ cs, WellFormed i = true) → WellFormed c = true → n < (encode c).length →
    .assertReset ∉ es → sentWords es = cs.flatMap encode ++ (encode c).take n → r.extendAll es = some r' →
    r'.state.cmdq = [] → r'.state.cmdbuf = (encode c).take n →
    ∃ t, performAll cs r.state = .next t ∧ r'.outcome = ⟨r.taken ++ t.rspq, t.M, t.K, t.imageWords⟩

/-- R241: the filter in the outcome of a quiescent run is what a final CLONE reads. Sending CLONE and letting
the block take and perform it ends in a quiescent run whose outcome differs by that response alone. -/
def Obligations.FinalCloneReadsTheOutcome : Prop :=
  ∀ r : Run, Quiescent r.state →
    ∃ r', r.extendAll [.send 0x06, .step, .step] = some r' ∧ Quiescent r'.state ∧
      r'.outcome = { r.outcome with
        responses := r.outcome.responses ++
          0x0000000000000600 :: r.outcome.M :: r.outcome.K :: r.outcome.image }

/-- R241, R231: the host's taking of a word, an idle step and the acting on a pending reset leave the outcome
as it is, and after an assertion of reset the outcome is the same whether the step before it (a command
performed, say) happened or not. That a pending reset counts as acted on is the model's reading
(log entry 20). -/
def Obligations.OutcomeHidesTakesStallsAndResets : Prop :=
  (∀ r r' : Run, r.state.rst = false → r.extend .take = some r' → r'.outcome = r.outcome) ∧
  (∀ r r' : Run, Quiescent r.state → r.extend .step = some r' → r' = r) ∧
  (∀ r r' : Run, r.state.rst = true → r.extend .step = some r' → r'.outcome = r.outcome) ∧
  ∀ r r' q q' : Run, r.extend .step = some r' → r.extend .assertReset = some q →
    r'.extend .assertReset = some q' → q'.outcome = q.outcome

/-! ## The assembler -/

/-- R76: the words the assembler emits for a command line decode to exactly that command, and every
command of a line fits its format (which is the check on UNION's image). -/
def Obligations.AssembledLineDecodesToItsCommand : Prop :=
  ∀ (line : List Char) (l : AsmLine), assembleLine line = some l →
    (∀ c ∈ l.expand, WellFormed c = true) ∧
    ∀ (i : Instr) (more : List Word), l = .command i → decode (l.words ++ more) = .command i more

/-- R76: a comment changes nothing. Text after a `;` outside a string is ignored. -/
def Obligations.AssemblerIgnoresComments : Prop :=
  ∀ text comment : List Char, '"' ∉ text → ';' ∉ text →
    assembleLine (text ++ ';' :: comment) = assembleLine text
end

