-- ==== Sys2Proof/Laws/Decode.lean ====
section
/-! SUPPORT. The laws of the decoder and the encoder. -/

namespace Sys2Proof

/-! ## Headers -/

@[simp] theorem decodeHeader_header (op : Opcode) : decodeHeader op.header = some op := by
  cases op <;> decide

/-- A header is an opcode's exactly when it is that opcode's header word. -/
theorem decodeHeader_eq_some (w : Word) (op : Opcode) : decodeHeader w = some op ↔ w = op.header := by
  constructor
  · intro h
    obtain ⟨r, hr, rfl⟩ := Option.map_eq_some_iff.1 h
    have hm := List.find?_some hr
    have hmem := List.mem_of_find?_eq_some hr
    have hall : ∀ r ∈ opcodeTable, r.mask = BitVec.allOnes 64 ∧ r.pattern = r.op.header := by decide
    have ⟨h1, h2⟩ := hall r hmem
    rw [h1, BitVec.and_allOnes, h2] at hm
    simpa using hm
  · rintro rfl; exact decodeHeader_header op

/-- No two rows of the opcode table match the same header. -/
theorem opcodeTable_disjoint :
    opcodeTable.Pairwise fun r r' => r.pattern &&& r'.mask ≠ r'.pattern ∧ r.mask = r'.mask := by decide

theorem header_injective {a b : Opcode} (h : a.header = b.header) : a = b := by
  have := decodeHeader_header a
  rw [h, decodeHeader_header] at this
  exact (Option.some.inj this).symm

/-! ## Lengths and whole commands -/

@[simp] theorem wordAt_zero (w : Word) (ws : List Word) : wordAt (w :: ws) 0 = w := rfl

@[simp] theorem wordAt_succ (w : Word) (ws : List Word) (j : Nat) :
    wordAt (w :: ws) (j + 1) = wordAt ws j := rfl

/-- The length of a command with a legal header, once `W1` is there or not needed. -/
theorem commandLength?_of_header {ws : List Word} {op : Opcode} (hne : ws ≠ [])
    (h : decodeHeader (wordAt ws 0) = some op)
    (hw : 2 ≤ ws.length ∨ op.format = .N ∨ op.format = .C ∨ op.format = .L) :
    commandLength? ws = some (op.format.length (wordAt ws 1)) := by
  match ws, hne with
  | w0 :: rest, _ =>
    simp only [wordAt_zero] at h
    simp only [commandLength?, h]
    cases rest with
    | cons w1 rest => cases op.format <;> rfl
    | nil => cases hf : op.format <;> simp_all

/-- Reading a whole command with a legal header. -/
theorem decode_of_length {ws : List Word} {op : Opcode} {n : Nat} (hl : commandLength? ws = some n)
    (hn : n ≤ ws.length) (h : decodeHeader (wordAt ws 0) = some op) :
    decode ws = .command (assembleOperands op ws) (ws.drop n) := by
  simp [decode, hl, Nat.not_lt.2 hn, h]

/-- All that the decoder can answer. -/
theorem decode_cases (ws : List Word) :
    (decode ws = .incomplete ∧ ∀ n, commandLength? ws = some n → ws.length < n) ∨
    (∃ n, commandLength? ws = some n ∧ n ≤ ws.length ∧ decodeHeader (wordAt ws 0) = none ∧
      decode ws = .illegal (wordAt ws 0) (ws.drop n)) ∨
    (∃ n op, commandLength? ws = some n ∧ n ≤ ws.length ∧ decodeHeader (wordAt ws 0) = some op ∧
      decode ws = .command (assembleOperands op ws) (ws.drop n)) := by
  unfold decode
  cases hl : commandLength? ws with
  | none => exact .inl ⟨rfl, by simp⟩
  | some n =>
    by_cases hn : ws.length < n
    · exact .inl ⟨by simp [hn], fun m hm => by cases hm; exact hn⟩
    · cases hh : decodeHeader (wordAt ws 0) with
      | none => exact .inr (.inl ⟨n, rfl, Nat.not_lt.1 hn, rfl, by simp [hn]⟩)
      | some op => exact .inr (.inr ⟨n, op, rfl, Nat.not_lt.1 hn, rfl, by simp [hn]⟩)

/-- The length is read from the first two words alone, so later words do not change it (R73). -/
theorem commandLength?_append {ws : List Word} {n : Nat} (h : commandLength? ws = some n) (more : List Word) :
    commandLength? (ws ++ more) = some n := by
  match ws with
  | [] => simp [commandLength?] at h
  | [w0] =>
    cases hh : decodeHeader w0 with
    | none => simpa [commandLength?, hh] using h
    | some op => cases more <;> cases hf : op.format <;> simp_all [commandLength?, Format.length]
  | w0 :: w1 :: rest =>
    cases hh : decodeHeader w0 with
    | none => simpa [commandLength?, hh] using h
    | some op => cases hf : op.format <;> simp_all [commandLength?, wordAt]

theorem commandLength?_pos {ws : List Word} {n : Nat} (h : commandLength? ws = some n) : 1 ≤ n := by
  match ws with
  | [] => simp [commandLength?] at h
  | w0 :: rest =>
    cases hh : decodeHeader w0 with
    | none => simp [commandLength?, hh] at h; omega
    | some op =>
      cases hf : op.format <;> cases rest <;> simp [commandLength?, hh, hf, Format.length] at h <;> omega

/-- Two words always tell the length. -/
theorem commandLength?_isSome {ws : List Word} (h : 2 ≤ ws.length) : ∃ n, commandLength? ws = some n := by
  match ws, h with
  | w0 :: w1 :: rest, _ =>
    cases hh : decodeHeader w0 with
    | none => exact ⟨1, by simp [commandLength?, hh]⟩
    | some op =>
      exact ⟨_, commandLength?_of_header (by simp) (by simpa using hh) (.inl (by simp))⟩

/-! ## Bytes and words -/

theorem ceilDiv_mul_ge (a b : Nat) (hb : 0 < b) : a ≤ b * ceilDiv a b := by
  unfold ceilDiv
  have := Nat.div_add_mod (a + b - 1) b
  have := Nat.mod_lt (a + b - 1) hb
  omega

@[simp] theorem packBytes_length (n : Nat) (bs : List Byte) : (packBytes n bs).length = n := by
  induction n generalizing bs with
  | zero => rfl
  | succ n ih => simp [packBytes, ih]

@[simp] theorem flatMap_wordBytes_length (ws : List Word) : (ws.flatMap wordBytes).length = 8 * ws.length := by
  induction ws with
  | nil => rfl
  | cons w ws ih => simp [List.flatMap_cons, ih, wordBytes]; omega

@[simp] theorem unpackBytes_length (len : Nat) (ws : List Word) :
    (unpackBytes len ws).length = min len (8 * ws.length) := by
  rw [unpackBytes, List.length_take, flatMap_wordBytes_length]

theorem wordBytes_getElem? (w : Word) (j : Nat) (hj : j < 8) : (wordBytes w)[j]? = some (wordByte w j) := by
  match j, hj with
  | 0, _ | 1, _ | 2, _ | 3, _ | 4, _ | 5, _ | 6, _ | 7, _ => rfl

theorem flatMap_wordBytes_getElem? (ws : List Word) (j : Nat) (hj : j < 8 * ws.length) :
    (ws.flatMap wordBytes)[j]? = some (wordByte (ws.getD (j / 8) 0) (j % 8)) := by
  induction ws generalizing j with
  | nil => simp at hj
  | cons w ws ih =>
    rw [List.flatMap_cons]
    by_cases h : j < 8
    · rw [List.getElem?_append_left (by simpa [wordBytes] using h), wordBytes_getElem? w j h]
      simp [Nat.div_eq_of_lt h, Nat.mod_eq_of_lt h]
    · have h8 : (wordBytes w).length = 8 := rfl
      rw [List.getElem?_append_right (by omega), h8, ih (j - 8) (by simp at hj; omega)]
      have h1 : j / 8 = (j - 8) / 8 + 1 := by omega
      have h2 : j % 8 = (j - 8) % 8 := by omega
      rw [h1, h2]
      rfl

/-- Byte `j` of the string the data words carry (R68). -/
theorem unpackBytes_getElem? (len : Nat) (ws : List Word) (j : Nat) (hj : j < len) (hl : len ≤ 8 * ws.length) :
    (unpackBytes len ws)[j]? = some (wordByte (ws.getD (j / 8) 0) (j % 8)) := by
  rw [unpackBytes, List.getElem?_take_of_lt hj, flatMap_wordBytes_getElem? ws j (by omega)]

theorem le64_bit (bs : List Byte) (i : Nat) (hi : i < 64) :
    (le64 bs).getLsbD i = (bs.getD (i / 8) 0).getLsbD (i % 8) := by
  induction bs generalizing i with
  | nil => simp [le64]
  | cons b bs ih =>
    by_cases h : i < 8
    · simp [le64, h, hi, Nat.div_eq_of_lt h, Nat.mod_eq_of_lt h]
    · have h1 : i / 8 = (i - 8) / 8 + 1 := by omega
      have h2 : i % 8 = (i - 8) % 8 := by omega
      have h3 : b.getLsbD i = false := BitVec.getLsbD_of_ge _ _ (by omega)
      simp only [le64, BitVec.getLsbD_or, BitVec.getLsbD_setWidth, BitVec.getLsbD_shiftLeft, h3, hi, h,
        decide_true, decide_false, Bool.and_false, Bool.not_false, Bool.true_and, Bool.false_or]
      rw [ih (i - 8) (by omega), h1, h2]
      rfl

theorem wordByte_le64 (bs : List Byte) (j : Nat) (hj : j < 8) : wordByte (le64 bs) j = bs.getD j 0 := by
  apply BitVec.eq_of_getLsbD_eq
  intro i hi
  have h1 : (8 * j + i) / 8 = j := by omega
  have h2 : (8 * j + i) % 8 = i := by omega
  rw [wordByte, BitVec.getLsbD_extractLsb', le64_bit _ _ (by omega), h1, h2]
  simp [hi]

theorem wordBytes_le64 (bs : List Byte) : wordBytes (le64 bs) =
    [bs.getD 0 0, bs.getD 1 0, bs.getD 2 0, bs.getD 3 0, bs.getD 4 0, bs.getD 5 0, bs.getD 6 0, bs.getD 7 0] := by
  simp [wordBytes, wordByte_le64]

theorem packBytes_getD (n : Nat) (bs : List Byte) (k : Nat) (hk : k < n) :
    (packBytes n bs).getD k 0 = le64 ((bs.drop (8 * k)).take 8) := by
  induction n generalizing bs k with
  | zero => omega
  | succ n ih =>
    cases k with
    | zero => simp [packBytes]
    | succ k =>
      simp only [packBytes, List.getD_cons_succ]
      rw [ih _ k (by omega), List.drop_drop, show 8 + 8 * k = 8 * (k + 1) by ring]

/-- Unpacking the packed words gives the string back (R68, R76). -/
theorem unpackBytes_packBytes (bs : List Byte) (more : List Word) :
    unpackBytes bs.length (packBytes (ceilDiv bs.length 8) bs ++ more) = bs := by
  have hc := ceilDiv_mul_ge bs.length 8 (by omega)
  apply List.ext_getElem?
  intro j
  by_cases hj : j < bs.length
  · have hk : j / 8 < ceilDiv bs.length 8 := by omega
    rw [unpackBytes_getElem? _ _ j hj (by simp; omega)]
    have hg : (packBytes (ceilDiv bs.length 8) bs ++ more).getD (j / 8) 0 = le64 ((bs.drop (8 * (j / 8))).take 8) := by
      rw [← packBytes_getD _ bs _ hk]
      simp [List.getD, List.getElem?_append_left, hk]
    rw [hg, wordByte_le64 _ _ (Nat.mod_lt _ (by omega))]
    have hm : j % 8 < 8 := Nat.mod_lt _ (by omega)
    have hd : 8 * (j / 8) + j % 8 = j := Nat.div_add_mod j 8
    simp [List.getD, List.getElem?_take_of_lt hm, List.getElem?_drop, hd, hj]
  · rw [List.getElem?_eq_none (by simp; omega), List.getElem?_eq_none (by omega)]

end Sys2Proof
end

