-- ==== Sys2Proof/Laws/State.lean ====
section
/-! SUPPORT. What each named update of the state does to each field, so that no proof unfolds a record update. -/

namespace Sys2Proof.Machine

@[simp] theorem State.setBits_M (s : State) (mem : Memory) : (s.setBits mem).M = s.M := rfl
@[simp] theorem State.setBits_K (s : State) (mem : Memory) : (s.setBits mem).K = s.K := rfl
@[simp] theorem State.setBits_BITS (s : State) (mem : Memory) : (s.setBits mem).BITS = mem := rfl
@[simp] theorem State.setBits_cmdbuf (s : State) (mem : Memory) : (s.setBits mem).cmdbuf = s.cmdbuf := rfl
@[simp] theorem State.setBits_rspq (s : State) (mem : Memory) : (s.setBits mem).rspq = s.rspq := rfl
@[simp] theorem State.setBits_cmdq (s : State) (mem : Memory) : (s.setBits mem).cmdq = s.cmdq := rfl
@[simp] theorem State.setBits_rst (s : State) (mem : Memory) : (s.setBits mem).rst = s.rst := rfl
@[simp] theorem State.setBits_cfg (s : State) (mem : Memory) : (s.setBits mem).cfg = s.cfg := rfl

@[simp] theorem State.setDims_M (s : State) (m k : Word) : (s.setDims m k).M = m := rfl
@[simp] theorem State.setDims_K (s : State) (m k : Word) : (s.setDims m k).K = k := rfl
@[simp] theorem State.setDims_BITS (s : State) (m k : Word) : (s.setDims m k).BITS = s.BITS := rfl
@[simp] theorem State.setDims_cmdbuf (s : State) (m k : Word) : (s.setDims m k).cmdbuf = s.cmdbuf := rfl
@[simp] theorem State.setDims_rspq (s : State) (m k : Word) : (s.setDims m k).rspq = s.rspq := rfl
@[simp] theorem State.setDims_cmdq (s : State) (m k : Word) : (s.setDims m k).cmdq = s.cmdq := rfl
@[simp] theorem State.setDims_rst (s : State) (m k : Word) : (s.setDims m k).rst = s.rst := rfl
@[simp] theorem State.setDims_cfg (s : State) (m k : Word) : (s.setDims m k).cfg = s.cfg := rfl

@[simp] theorem State.send_M (s : State) (ws : List Word) : (s.send ws).M = s.M := rfl
@[simp] theorem State.send_K (s : State) (ws : List Word) : (s.send ws).K = s.K := rfl
@[simp] theorem State.send_BITS (s : State) (ws : List Word) : (s.send ws).BITS = s.BITS := rfl
@[simp] theorem State.send_cmdbuf (s : State) (ws : List Word) : (s.send ws).cmdbuf = s.cmdbuf := rfl
@[simp] theorem State.send_rspq (s : State) (ws : List Word) : (s.send ws).rspq = s.rspq ++ ws := rfl
@[simp] theorem State.send_cmdq (s : State) (ws : List Word) : (s.send ws).cmdq = s.cmdq := rfl
@[simp] theorem State.send_rst (s : State) (ws : List Word) : (s.send ws).rst = s.rst := rfl
@[simp] theorem State.send_cfg (s : State) (ws : List Word) : (s.send ws).cfg = s.cfg := rfl

@[simp] theorem State.setBuf_M (s : State) (ws : List Word) : (s.setBuf ws).M = s.M := rfl
@[simp] theorem State.setBuf_K (s : State) (ws : List Word) : (s.setBuf ws).K = s.K := rfl
@[simp] theorem State.setBuf_BITS (s : State) (ws : List Word) : (s.setBuf ws).BITS = s.BITS := rfl
@[simp] theorem State.setBuf_cmdbuf (s : State) (ws : List Word) : (s.setBuf ws).cmdbuf = ws := rfl
@[simp] theorem State.setBuf_rspq (s : State) (ws : List Word) : (s.setBuf ws).rspq = s.rspq := rfl
@[simp] theorem State.setBuf_cmdq (s : State) (ws : List Word) : (s.setBuf ws).cmdq = s.cmdq := rfl
@[simp] theorem State.setBuf_rst (s : State) (ws : List Word) : (s.setBuf ws).rst = s.rst := rfl
@[simp] theorem State.setBuf_cfg (s : State) (ws : List Word) : (s.setBuf ws).cfg = s.cfg := rfl

@[simp] theorem State.setCmdq_M (s : State) (ws : List Word) : (s.setCmdq ws).M = s.M := rfl
@[simp] theorem State.setCmdq_K (s : State) (ws : List Word) : (s.setCmdq ws).K = s.K := rfl
@[simp] theorem State.setCmdq_BITS (s : State) (ws : List Word) : (s.setCmdq ws).BITS = s.BITS := rfl
@[simp] theorem State.setCmdq_cmdbuf (s : State) (ws : List Word) : (s.setCmdq ws).cmdbuf = s.cmdbuf := rfl
@[simp] theorem State.setCmdq_rspq (s : State) (ws : List Word) : (s.setCmdq ws).rspq = s.rspq := rfl
@[simp] theorem State.setCmdq_cmdq (s : State) (ws : List Word) : (s.setCmdq ws).cmdq = ws := rfl
@[simp] theorem State.setCmdq_rst (s : State) (ws : List Word) : (s.setCmdq ws).rst = s.rst := rfl
@[simp] theorem State.setCmdq_cfg (s : State) (ws : List Word) : (s.setCmdq ws).cfg = s.cfg := rfl

@[simp] theorem State.hostReset_M (s : State) : (s.hostReset).M = s.M := rfl
@[simp] theorem State.hostReset_K (s : State) : (s.hostReset).K = s.K := rfl
@[simp] theorem State.hostReset_BITS (s : State) : (s.hostReset).BITS = s.BITS := rfl
@[simp] theorem State.hostReset_cmdbuf (s : State) : (s.hostReset).cmdbuf = s.cmdbuf := rfl
@[simp] theorem State.hostReset_rspq (s : State) : (s.hostReset).rspq = s.rspq := rfl
@[simp] theorem State.hostReset_cmdq (s : State) : (s.hostReset).cmdq = s.cmdq := rfl
@[simp] theorem State.hostReset_rst (s : State) : (s.hostReset).rst = true := rfl
@[simp] theorem State.hostReset_cfg (s : State) : (s.hostReset).cfg = s.cfg := rfl

@[simp] theorem State.resetWith_M (c : Config) : (State.resetWith c).M = 1 := rfl
@[simp] theorem State.resetWith_K (c : Config) : (State.resetWith c).K = 1 := rfl
@[simp] theorem State.resetWith_BITS (c : Config) : (State.resetWith c).BITS = Memory.zero := rfl
@[simp] theorem State.resetWith_cmdbuf (c : Config) : (State.resetWith c).cmdbuf = [] := rfl
@[simp] theorem State.resetWith_rspq (c : Config) : (State.resetWith c).rspq = [] := rfl
@[simp] theorem State.resetWith_cmdq (c : Config) : (State.resetWith c).cmdq = [] := rfl
@[simp] theorem State.resetWith_rst (c : Config) : (State.resetWith c).rst = false := rfl
@[simp] theorem State.resetWith_cfg (c : Config) : (State.resetWith c).cfg = c := rfl

/-! Updates of one state after another. -/

@[simp] theorem State.setBits_setBits (s : State) (a b : Memory) : (s.setBits a).setBits b = s.setBits b := rfl
@[simp] theorem State.send_send (s : State) (a b : List Word) : (s.send a).send b = s.send (a ++ b) := by
  simp [State.send]
@[simp] theorem State.setBits_self (s : State) : s.setBits s.BITS = s := rfl
@[simp] theorem State.setBuf_self (s : State) : s.setBuf s.cmdbuf = s := rfl
@[simp] theorem State.setCmdq_self (s : State) : s.setCmdq s.cmdq = s := rfl

end Sys2Proof.Machine
end

