-- ==== Sys2Proof/Laws/Memory.lean ====
section
/-! SUPPORT. The laws of the bitset store: what each operation reads as afterwards, and that each
keeps the canonical form. -/

namespace Sys2Proof.Machine

theorem Memory.read_eq_mem (mem : Memory) (j : Nat) : mem.read j = decide (j ∈ mem) := by
  simp [Memory.read, Memory.unlisted]

theorem Memory.read_iff (mem : Memory) (j : Nat) : mem.read j = true ↔ j ∈ mem := by
  simp [Memory.read_eq_mem]

@[simp] theorem Memory.read_zero (j : Nat) : Memory.zero.read j = false := by
  simp [Memory.read_eq_mem, Memory.zero]

@[simp] theorem Memory.mem_setOne (j x : Nat) (mem : Memory) :
    x ∈ Memory.setOne j mem ↔ x = j ∨ x ∈ mem := by
  induction mem with
  | nil => simp [Memory.setOne]
  | cons a rest ih =>
    simp only [Memory.setOne]
    split
    · simp
    · split
      · rename_i h; subst h; simp
      · simp only [List.mem_cons, ih]; tauto

@[simp] theorem Memory.mem_setZero (j x : Nat) (mem : Memory) :
    x ∈ Memory.setZero j mem ↔ x ≠ j ∧ x ∈ mem := by
  induction mem with
  | nil => simp [Memory.setZero]
  | cons a rest ih =>
    simp only [Memory.setZero]
    split
    · rename_i h; subst h; rw [ih]; simp only [List.mem_cons]; tauto
    · rename_i h
      simp only [List.mem_cons, ih]
      constructor
      · rintro (rfl | h') <;> simp_all; exact fun h2 => h h2.symm
      · tauto

/-- A read after a write: the bit written at that address, the old bit everywhere else. -/
theorem Memory.read_write (mem : Memory) (j : Nat) (b : Bool) (x : Nat) :
    (mem.write j b).read x = if x = j then b else mem.read x := by
  cases b <;> by_cases h : x = j <;> simp [Memory.write, Memory.read_eq_mem, h]

theorem Memory.mem_write (mem : Memory) (j : Nat) (b : Bool) (x : Nat) (h : x ∈ mem.write j b) :
    x = j ∨ x ∈ mem := by
  cases b
  · simp [Memory.write] at h; exact .inr h.2
  · simpa [Memory.write] using h

theorem Memory.zero_wf : Memory.zero.wf := List.Pairwise.nil

theorem Memory.setOne_wf (j : Nat) (mem : Memory) (h : mem.wf) : (Memory.setOne j mem).wf := by
  induction mem with
  | nil => simp [Memory.setOne]
  | cons a rest ih =>
    have ⟨ha, hr⟩ := List.pairwise_cons.1 h
    simp only [Memory.setOne]
    split
    · rename_i hlt
      refine List.pairwise_cons.2 ⟨fun x hx => ?_, h⟩
      rcases List.mem_cons.1 hx with rfl | hx
      · exact hlt
      · exact hlt.trans (ha x hx)
    · split
      · exact h
      · refine List.pairwise_cons.2 ⟨fun x hx => ?_, ih hr⟩
        rcases (Memory.mem_setOne j x rest).1 hx with rfl | hx
        · omega
        · exact ha x hx

theorem Memory.setZero_wf (j : Nat) (mem : Memory) (h : mem.wf) : (Memory.setZero j mem).wf := by
  induction mem with
  | nil => simp [Memory.setZero]
  | cons a rest ih =>
    have ⟨ha, hr⟩ := List.pairwise_cons.1 h
    simp only [Memory.setZero]
    split
    · exact ih hr
    · exact List.pairwise_cons.2 ⟨fun x hx => ha x ((Memory.mem_setZero j x rest).1 hx).2, ih hr⟩

/-- Every write keeps the canonical form. -/
theorem Memory.write_wf (mem : Memory) (j : Nat) (b : Bool) (h : mem.wf) : (mem.write j b).wf := by
  cases b
  · exact Memory.setZero_wf j mem h
  · exact Memory.setOne_wf j mem h

/-- Canonical stores that read alike are the same list. -/
theorem Memory.ext_of_wf {a b : Memory} (ha : a.wf) (hb : b.wf) (h : ∀ j, a.read j = b.read j) :
    a = b := by
  have hm : ∀ j, j ∈ a ↔ j ∈ b := fun j => by rw [← Memory.read_iff, ← Memory.read_iff, h j]
  induction a generalizing b with
  | nil =>
    cases b with
    | nil => rfl
    | cons y _ => simpa using hm y
  | cons x xs ih =>
    cases b with
    | nil => simpa using hm x
    | cons y ys =>
      have ⟨hx, hxs⟩ := List.pairwise_cons.1 ha
      have ⟨hy, hys⟩ := List.pairwise_cons.1 hb
      have hxy : x = y := by
        rcases List.mem_cons.1 ((hm x).1 (by simp)) with h1 | h1
        · exact h1
        · rcases List.mem_cons.1 ((hm y).2 (by simp)) with h2 | h2
          · exact h2.symm
          · exact absurd (hx y h2) (Nat.lt_asymm (hy x h1))
      subst hxy
      have htail : ∀ j, j ∈ xs ↔ j ∈ ys := by
        intro j
        constructor
        · intro hj
          rcases List.mem_cons.1 ((hm j).1 (by simp [hj])) with h1 | h1
          · subst h1; exact absurd (hx j hj) (Nat.lt_irrefl j)
          · exact h1
        · intro hj
          rcases List.mem_cons.1 ((hm j).2 (by simp [hj])) with h1 | h1
          · subst h1; exact absurd (hy j hj) (Nat.lt_irrefl j)
          · exact h1
      rw [ih hxs hys (fun j => by simp [Memory.read_eq_mem, htail j]) htail]

end Sys2Proof.Machine
end

