-- ==== Sys2Proof/Laws/Ops.lean ====
section
/-! SUPPORT. One lemma per shared operation: all that it can do. -/

namespace Sys2Proof.Machine

/-! ## The store's two primitives -/

theorem State.memRead_eq (s : State) (j : Nat) :
    s.memRead j = if j < s.M.toNat then some (s.BITS.read j) else none := rfl

@[simp] theorem State.memRead_of_lt {s : State} {j : Nat} (h : j < s.M.toNat) :
    s.memRead j = some (s.BITS.read j) := by simp [State.memRead, h]

@[simp] theorem State.memRead_of_le {s : State} {j : Nat} (h : s.M.toNat ≤ j) :
    s.memRead j = none := by simp [State.memRead, Nat.not_lt.2 h]

theorem State.memRead_eq_some {s : State} {j : Nat} {b : Bool} :
    s.memRead j = some b ↔ j < s.M.toNat ∧ s.BITS.read j = b := by
  by_cases h : j < s.M.toNat <;> simp [State.memRead, h]

theorem State.memWrite_of_lt {s : State} {j : Nat} (h : j < s.M.toNat) (b : Bool) :
    s.memWrite j b = some (s.setBits (s.BITS.write j b)) := by simp [State.memWrite, h]

theorem State.memWrite_of_le {s : State} {j : Nat} (h : s.M.toNat ≤ j) (b : Bool) :
    s.memWrite j b = none := by simp [State.memWrite, Nat.not_lt.2 h]

/-- All that a bit write can do. -/
theorem State.memWrite_cases {s t : State} {j : Nat} {b : Bool} (h : s.memWrite j b = some t) :
    j < s.M.toNat ∧ t = s.setBits (s.BITS.write j b) := by
  by_cases hj : j < s.M.toNat
  · rw [State.memWrite_of_lt hj] at h; exact ⟨hj, (Option.some.inj h).symm⟩
  · rw [State.memWrite_of_le (Nat.not_lt.1 hj)] at h; cases h

/-! ## How a command ends -/

theorem State.respond_eq (s : State) (op : Opcode) (payload : List Word) :
    s.respond op payload = s.send (statusWord .ok op.code 0 :: payload) := rfl

theorem State.raise_eq (s : State) (opc : BitVec 8) (e : Status) (d : BitVec 8) (info : List Word) :
    s.raise opc e d info = s.send (statusWord e opc d :: info) := rfl

theorem State.raiseTooLong_eq (s : State) (op : Opcode) (data : List Byte) :
    s.raiseTooLong op data = s.send [statusWord .invalidOperand op.code 0, dataLength data] := rfl

@[simp] theorem State.tooLong_iff (s : State) (data : List Byte) :
    s.tooLong data = true ↔ s.cfg.lMax.toNat < data.length := by simp [State.tooLong]

@[simp] theorem finish_some {α : Type} (a : α) (k : α → State) : finish (some a) k = .next (k a) := rfl

@[simp] theorem finish_none {α : Type} (k : α → State) :
    finish (none : Option α) k = .fault .bitIndexOutOfRange := rfl

theorem finish_eq_next {α : Type} {r : Option α} {k : α → State} {t : State}
    (h : finish r k = .next t) : ∃ a, r = some a ∧ t = k a := by
  cases r with
  | none => cases h
  | some a => exact ⟨a, rfl, by cases h; rfl⟩

/-! ## The fields of a status word -/

theorem rspStatus_statusWord (st : Status) (opc d : BitVec 8) :
    rspStatus (statusWord st opc d) = st.code := by
  apply BitVec.eq_of_getLsbD_eq
  intro i hi
  have h1 : i < 16 := by omega
  simp [rspStatus, statusWord, hi, h1, show i < 64 by omega]

theorem rspOpc_statusWord (st : Status) (opc d : BitVec 8) :
    rspOpc (statusWord st opc d) = opc := by
  apply BitVec.eq_of_getLsbD_eq
  intro i hi
  simp [rspOpc, statusWord, hi, show 8 + i < 64 by omega, show 8 + i < 16 by omega]

theorem rspDetail_statusWord (st : Status) (opc d : BitVec 8) :
    rspDetail (statusWord st opc d) = d := by
  apply BitVec.eq_of_getLsbD_eq
  intro i hi
  have h1 : st.code.getLsbD (16 + i) = false := BitVec.getLsbD_of_ge _ _ (by omega)
  have h2 : opc.getLsbD (16 + i - 8) = false := BitVec.getLsbD_of_ge _ _ (by omega)
  simp [rspDetail, statusWord, hi, h1, h2, show 16 + i < 64 by omega]

/-- Bits `[63:24]` of a status word are zero (R80). -/
theorem statusWord_high (st : Status) (opc d : BitVec 8) : statusWord st opc d >>> 24 = 0 := by
  apply BitVec.eq_of_getLsbD_eq
  intro i hi
  have h1 : st.code.getLsbD (24 + i) = false := BitVec.getLsbD_of_ge _ _ (by omega)
  have h2 : opc.getLsbD (24 + i - 8) = false := BitVec.getLsbD_of_ge _ _ (by omega)
  have h3 : d.getLsbD (24 + i - 16) = false := BitVec.getLsbD_of_ge _ _ (by omega)
  simp [statusWord, h1, h2, h3]

end Sys2Proof.Machine
end

