-- ==== Sys2Proof/Laws/Probes.lean ====
section
/-! SUPPORT. The index generator, and one lemma per loop of the bitset store: all it can do. -/

namespace Sys2Proof.Machine

/-! ## locate -/

/-- The result lies below the modulus (R134). -/
theorem locate_lt (h : HashWords) (i m : Word) (hm : 0 < m.toNat) : (locate h i m).toNat < m.toNat := by
  simp only [locate, BitVec.toNat_umod]
  exact Nat.mod_lt _ hm

theorem State.probe_lt (s : State) (h : HashWords) (i : Nat) (hm : 0 < s.M.toNat) :
    s.probe h i < s.M.toNat := locate_lt h _ _ hm

@[simp] theorem State.probe_setBits (s : State) (mem : Memory) (h : HashWords) (i : Nat) :
    (s.setBits mem).probe h i = s.probe h i := rfl

@[simp] theorem State.probe_send (s : State) (ws : List Word) (h : HashWords) (i : Nat) :
    (s.send ws).probe h i = s.probe h i := rfl

/-- The selector depends on `i mod 4` only: the table of R132. -/
theorem mixSelector_eq (i : Nat) : mixSelector i = if i % 4 = 0 ∨ i % 4 = 3 then 2 else 3 := by
  unfold mixSelector
  split <;> omega

/-! ## The probe loop -/

/-- INSERT's loop changes the store only: it sets the probed bits and keeps every other bit. -/
theorem State.setProbes_spec (s : State) (h : HashWords) (hm : 0 < s.M.toNat) (n : Nat) :
    ∃ mem, s.setProbes h n = some (s.setBits mem) ∧
      (∀ j, mem.read j = true ↔ s.BITS.read j = true ∨ ∃ i < n, s.probe h i = j) ∧
      (s.BITS.wf → mem.wf) ∧ (∀ j ∈ mem, j ∈ s.BITS ∨ j < s.M.toNat) := by
  induction n with
  | zero => exact ⟨s.BITS, rfl, by simp, id, fun j hj => .inl hj⟩
  | succ n ih =>
    obtain ⟨mem, he, hr, hw, hb⟩ := ih
    have hp := s.probe_lt h n hm
    refine ⟨mem.write (s.probe h n) true, ?_, fun j => ?_, fun w => Memory.write_wf _ _ _ (hw w), ?_⟩
    · simp only [State.setProbes, he, Option.bind_some, State.probe_setBits]
      rw [State.memWrite_of_lt (by simpa using hp)]
      simp
    · rw [Memory.read_write]
      have hs : (∃ i < n + 1, s.probe h i = j) ↔ (∃ i < n, s.probe h i = j) ∨ s.probe h n = j := by
        constructor
        · rintro ⟨i, hi, e⟩
          rcases Nat.lt_succ_iff_lt_or_eq.1 hi with h1 | h1
          · exact .inl ⟨i, h1, e⟩
          · exact .inr (h1 ▸ e)
        · rintro (⟨i, hi, e⟩ | e)
          · exact ⟨i, by omega, e⟩
          · exact ⟨n, by omega, e⟩
      rw [hs]
      by_cases hj : j = s.probe h n
      · simp [hj]
      · simp only [hj, if_false, hr]
        constructor
        · rintro (h1 | h1)
          · exact .inl h1
          · exact .inr (.inl h1)
        · rintro (h1 | h1 | h1)
          · exact .inl h1
          · exact .inr h1
          · exact absurd h1.symm hj
    · intro j hj
      rcases Memory.mem_write _ _ _ _ hj with rfl | h1
      · exact .inr hp
      · exact hb j h1

/-- CONTAINS's loop answers whether every probed bit is 1, wherever it stops (R161). -/
theorem State.allProbesSet_spec (s : State) (h : HashWords) (hm : 0 < s.M.toNat) (n k : Nat) :
    ∃ b, s.allProbesSet h n k = some b ∧
      (b = true ↔ ∀ i, k ≤ i → i < k + n → s.BITS.read (s.probe h i) = true) := by
  induction n generalizing k with
  | zero => exact ⟨true, rfl, by simp; intro i h1 h2; omega⟩
  | succ n ih =>
    simp only [State.allProbesSet, State.memRead_of_lt (s.probe_lt h k hm)]
    cases hb : s.BITS.read (s.probe h k) with
    | false =>
      refine ⟨false, rfl, by simp, fun h1 => ?_⟩
      have := h1 k (le_refl k) (by omega)
      simp [hb] at this
    | true =>
      obtain ⟨b, he, hi⟩ := ih (k + 1)
      refine ⟨b, he, hi.trans ⟨fun h1 i h2 h3 => ?_, fun h1 i h2 h3 => h1 i (by omega) (by omega)⟩⟩
      rcases Nat.eq_or_lt_of_le h2 with rfl | h4
      · exact hb
      · exact h1 i h4 (by omega)

/-- The whole loop of CONTAINS, from probe 0. -/
theorem State.allProbesSet_zero (s : State) (h : HashWords) (hm : 0 < s.M.toNat) (n : Nat) :
    ∃ b, s.allProbesSet h n 0 = some b ∧ (b = true ↔ ∀ i < n, s.BITS.read (s.probe h i) = true) := by
  obtain ⟨b, he, hb⟩ := s.allProbesSet_spec h hm n 0
  exact ⟨b, he, hb.trans ⟨fun h1 i hi => h1 i (by omega) (by omega), fun h1 i _ hi => h1 i (by omega)⟩⟩

/-! ## Images -/

/-- UNION's loop changes the store only: it ORs the image into the first `n` bits (R172). -/
theorem State.orImage_spec (s : State) (img : List Word) (n : Nat) (hn : n ≤ s.M.toNat) :
    ∃ mem, s.orImage img n = some (s.setBits mem) ∧
      (∀ j, mem.read j = (s.BITS.read j || (decide (j < n) && imageBit img j))) ∧
      (s.BITS.wf → mem.wf) ∧ (∀ j ∈ mem, j ∈ s.BITS ∨ j < s.M.toNat) := by
  induction n with
  | zero => exact ⟨s.BITS, rfl, by simp, id, fun j hj => .inl hj⟩
  | succ n ih =>
    obtain ⟨mem, he, hr, hw, hb⟩ := ih (by omega)
    have hlt : n < s.M.toNat := by omega
    refine ⟨mem.write n (mem.read n || imageBit img n), ?_, fun j => ?_,
      fun w => Memory.write_wf _ _ _ (hw w), ?_⟩
    · simp only [State.orImage, he, Option.bind_some]
      rw [State.memRead_of_lt (by simpa using hlt), Option.bind_some, State.memWrite_of_lt (by simpa using hlt)]
      simp
    · rw [Memory.read_write]
      by_cases hj : j = n
      · subst hj; simp [hr]
      · simp only [hj, if_false, hr]
        congr 2
        exact decide_eq_decide.2 (by omega)
    · intro j hj
      rcases Memory.mem_write _ _ _ _ hj with rfl | h1
      · exact .inr hlt
      · exact hb j h1

/-- The bits of an image word: store bits below `M`, zero elsewhere (R72, R175). -/
theorem State.cloneWord_bit (s : State) (w n b : Nat) (hn : n ≤ 64) :
    (s.cloneWord w n).getLsbD b =
      (decide (b < n) && decide (64 * w + b < s.M.toNat) && s.BITS.read (64 * w + b)) := by
  induction n with
  | zero => simp [State.cloneWord]
  | succ n ih =>
    have ih := ih (by omega)
    have hone : ((1 : Word) <<< n).getLsbD b = decide (b = n) := by
      by_cases hb : b = n
      · subst hb; simp; omega
      · by_cases h1 : b < n
        · simp [h1, hb]
        · have h2 : b - n ≠ 0 := by omega
          simp [hb, h1, BitVec.getLsbD_one, h2]
    have hlow : b ≠ n → decide (b < n + 1) = decide (b < n) := fun hb => decide_eq_decide.2 (by omega)
    by_cases hlt : 64 * w + n < s.M.toNat
    · cases hr : s.BITS.read (64 * w + n) with
      | true =>
        simp only [State.cloneWord, State.memRead_of_lt hlt, hr, BitVec.getLsbD_or, ih, hone]
        by_cases hb : b = n
        · subst hb; simp [hlt, hr]
        · rw [hlow hb]; simp [hb]
      | false =>
        simp only [State.cloneWord, State.memRead_of_lt hlt, hr, ih]
        by_cases hb : b = n
        · subst hb; simp [hr]
        · rw [hlow hb]
    · simp only [State.cloneWord, State.memRead_of_le (Nat.not_lt.1 hlt), ih]
      by_cases hb : b = n
      · subst hb; simp [hlt]
      · rw [hlow hb]

@[simp] theorem State.imageWords_length (s : State) : s.imageWords.length = ceilDiv s.M.toNat 64 := by
  simp [State.imageWords]

/-- Reading bit `j` of the store's own image gives the store's bit `j`, and 0 past the end (R72). -/
theorem State.imageBit_imageWords (s : State) (j : Nat) :
    imageBit s.imageWords j = (decide (j < s.M.toNat) && s.BITS.read j) := by
  have hm : j % 64 < 64 := Nat.mod_lt _ (by omega)
  have hj : 64 * (j / 64) + j % 64 = j := Nat.div_add_mod j 64
  unfold imageBit
  by_cases hw : j / 64 < ceilDiv s.M.toNat 64
  · have hget : s.imageWords.getD (j / 64) 0 = s.cloneWord (j / 64) 64 := by
      simp [State.imageWords, List.getD, hw]
    rw [hget, State.cloneWord_bit _ _ _ _ (le_refl 64), hj]
    simp [hm]
  · have hget : s.imageWords.getD (j / 64) 0 = 0 := by
      rw [List.getD_eq_getElem?_getD, List.getElem?_eq_none (by rw [State.imageWords_length]; omega)]
      rfl
    have hge : ¬ j < s.M.toNat := by
      unfold ceilDiv at hw
      omega
    rw [hget]
    simp [hge]

end Sys2Proof.Machine
end

