-- ==== Sys2Proof/Laws/Exec.lean ====
section
/-! SUPPORT. What a command and a turn can do, each said once. -/

namespace Sys2Proof.Machine

/-- The commands that may set bits and clear none. -/
def setsBitsOnly : Instr → Bool
  | .insert _ => true
  | .union _ _ _ => true
  | _ => false

/-- A store that holds every bit of `s`'s store, in canonical form and within bounds if `s`'s is. -/
structure Grows (s : State) (mem : Memory) : Prop where
  keeps : ∀ j, s.BITS.read j = true → mem.read j = true
  wf : s.BITS.wf → mem.wf
  bound : ∀ j ∈ mem, j ∈ s.BITS ∨ j < s.M.toNat

/-- All that one command can do when it answers a next state. -/
theorem exec_cases {i : Instr} {s t : State} (h : exec i s = .next t) :
    (∃ rsp, t = s.send rsp) ∨
    (∃ m k, i = .new m k ∧ (clampToOne m).toNat ≤ s.cfg.mMax.toNat ∧
      t = ((s.setDims (clampToOne m) (clampToOne k)).zeroStore).respond .new []) ∨
    (i = .clear ∧ t = s.zeroStore.respond .clear []) ∨
    (setsBitsOnly i = true ∧ ∃ mem, Grows s mem ∧ t = (s.setBits mem).respond i.opcode []) := by
  cases i with
  | new m k =>
    simp only [exec, execNew] at h
    split at h
    · exact .inl ⟨_, by cases h; rfl⟩
    · rename_i hle
      exact .inr (.inl ⟨m, k, rfl, Nat.not_lt.1 hle, by cases h; rfl⟩)
  | insert data =>
    simp only [exec, execInsert] at h
    split at h
    · exact .inl ⟨_, by cases h; rfl⟩
    · obtain ⟨u, hu, rfl⟩ := finish_eq_next h
      by_cases hm : 0 < s.M.toNat
      · obtain ⟨mem, he, hr, hw, hb⟩ := s.setProbes_spec (deriveWords s.cfg.hash data) hm s.K.toNat
        rw [he] at hu
        cases hu
        exact .inr (.inr (.inr ⟨rfl, mem, ⟨fun j hj => (hr j).2 (.inl hj), hw, hb⟩, rfl⟩))
      · cases hk : s.K.toNat with
        | zero =>
          rw [hk] at hu
          cases hu
          exact .inr (.inr (.inr ⟨rfl, s.BITS, ⟨fun _ hj => hj, id, fun j hj => .inl hj⟩, rfl⟩))
        | succ n =>
          rw [hk, State.setProbes] at hu
          obtain ⟨v, hv, hw⟩ := Option.bind_eq_some_iff.1 hu
          have hvm : ∀ n v, s.setProbes (deriveWords s.cfg.hash data) n = some v → v.M = s.M := by
            intro n
            induction n with
            | zero => intro v hv; cases hv; rfl
            | succ n ih =>
              intro v hv
              obtain ⟨x, hx, hv⟩ := Option.bind_eq_some_iff.1 hv
              rw [(State.memWrite_cases hv).2]
              exact ih x hx
          have := (State.memWrite_cases hw).1
          rw [hvm n v hv] at this
          omega
  | contains data =>
    simp only [exec, execContains] at h
    split at h
    · exact .inl ⟨_, by cases h; rfl⟩
    · obtain ⟨b, -, rfl⟩ := finish_eq_next h
      exact .inl ⟨_, rfl⟩
  | clear => exact .inr (.inr (.inl ⟨rfl, by cases h; rfl⟩))
  | union mO kO img =>
    simp only [exec, execUnion] at h
    split at h
    · exact .inl ⟨_, by cases h; rfl⟩
    · split at h
      · exact .inl ⟨_, by cases h; rfl⟩
      · obtain ⟨u, hu, rfl⟩ := finish_eq_next h
        obtain ⟨mem, he, hr, hw, hb⟩ := s.orImage_spec img s.M.toNat (le_refl _)
        rw [he] at hu
        cases hu
        exact .inr (.inr (.inr ⟨rfl, mem, ⟨fun j hj => by rw [hr, hj]; rfl, hw, hb⟩, rfl⟩))
  | clone => exact .inl ⟨_, by cases h; rfl⟩
  | capacity => exact .inl ⟨_, by cases h; rfl⟩
  | k => exact .inl ⟨_, by cases h; rfl⟩
  | derive data =>
    simp only [exec, execDerive] at h
    split at h <;> exact .inl ⟨_, by cases h; rfl⟩
  | locate h0 h1 h2 h3 j m =>
    simp only [exec, execLocate] at h
    split at h <;> exact .inl ⟨_, by cases h; rfl⟩

/-- All that the block's next turn can be. -/
theorem State.turn_cases (s : State) :
    (s.rst = true ∧ s.turn = .become s.takeReset) ∨
    (s.rst = false ∧ ∃ i rest, decode s.cmdbuf = .command i rest ∧ s.turn = .perform i (s.setBuf rest)) ∨
    (s.rst = false ∧ ∃ w0 rest, decode s.cmdbuf = .illegal w0 rest ∧
      s.turn = .become (illegalCommand w0 (s.setBuf rest))) ∨
    (s.rst = false ∧ decode s.cmdbuf = .incomplete ∧ s.turn = .become s.takeWord) := by
  unfold State.turn
  cases hr : s.rst with
  | true => exact .inl ⟨rfl, rfl⟩
  | false =>
    cases hd : decode s.cmdbuf with
    | command i rest => exact .inr (.inl ⟨rfl, i, rest, rfl, rfl⟩)
    | illegal w0 rest => exact .inr (.inr (.inl ⟨rfl, w0, rest, rfl, rfl⟩))
    | incomplete => exact .inr (.inr (.inr ⟨rfl, rfl, rfl⟩))

/-- Taking a word moves the oldest channel word to the end of `cmdbuf`, or changes nothing. -/
theorem State.takeWord_cases (s : State) :
    (s.cmdq = [] ∧ s.takeWord = s) ∨
    (∃ w q, s.cmdq = w :: q ∧ s.takeWord = (s.setBuf (s.cmdbuf ++ [w])).setCmdq q) := by
  unfold State.takeWord
  cases hq : s.cmdq with
  | nil => exact .inl ⟨rfl, rfl⟩
  | cons w q => exact .inr ⟨w, q, rfl, rfl⟩

end Sys2Proof.Machine
end

