-- ==== Sys2Proof/Laws/Hash.lean ====
section
/-! SUPPORT. The laws of the hash deriver: what each part of the hash depends on. -/

namespace Sys2Proof.Machine

/-- The first `n` blocks depend on the first `16 * n` bytes only. -/
theorem murmurBody_congr (s s' : List Byte) (st : HashState) (n : Nat)
    (h : s.take (16 * n) = s'.take (16 * n)) : murmurBody s st n = murmurBody s' st n := by
  induction n with
  | zero => rfl
  | succ n ih =>
    have h1 : s.take (16 * n) = s'.take (16 * n) := by
      have := congrArg (List.take (16 * n)) h
      simpa [List.take_take, show min (16 * n) (16 * (n + 1)) = 16 * n by omega] using this
    have h2 : ∀ k, k ≤ 8 → (s.drop (16 * n + k)).take 8 = (s'.drop (16 * n + k)).take 8 := by
      intro k hk
      have := congrArg (fun l => (l.drop (16 * n + k)).take 8) h
      simpa [List.drop_take, List.take_take,
        show min 8 (16 * (n + 1) - (16 * n + k)) = 8 by omega] using this
    rw [murmurBody, murmurBody, ih h1, h2 8 (le_refl 8), show (s.drop (16 * n)).take 8 = _ from h2 0 (by omega)]
    rfl

/-- An empty tail changes nothing (R105). -/
theorem murmurTail_nil (st : HashState) : murmurTail [] st = st := rfl

/-- A tail of 1 to 8 bytes enters `a` through the `k1` part (R105). -/
theorem murmurTail_short {t : List Byte} (h1 : 1 ≤ t.length) (h2 : t.length ≤ 8) (st : HashState) :
    murmurTail t st = ⟨st.a ^^^ mixK1 (le64 t), st.b⟩ := by
  simp [murmurTail, Nat.not_lt.2 h2, Nat.pos_iff_ne_zero.1 h1, List.take_of_length_le h2]

/-- A tail of 9 to 15 bytes enters `b` with its bytes from 8 on and `a` with its first 8 (R105). -/
theorem murmurTail_long {t : List Byte} (h : 8 < t.length) (st : HashState) :
    murmurTail t st = ⟨st.a ^^^ mixK1 (le64 (t.take 8)), st.b ^^^ mixK2 (le64 (t.drop 8))⟩ := by
  simp [murmurTail, h, Nat.pos_iff_ne_zero.1 (Nat.lt_trans (by omega) h)]

end Sys2Proof.Machine
end

