-- ==== Sys2Proof/Laws/PerInstr.lean ====
section
/-! SUPPORT. Statements made per instruction (LAWS.json). -/

namespace Sys2Proof.Laws

/-- The encoder writes the opcode's header and exactly as many words as the length rule of R73
reads from them, whatever words follow. -/
def EncodedLength.Statement (i : Instr) : Prop :=
  WellFormed i = true → ∀ rest : List Word,
    wordAt (encode i ++ rest) 0 = i.opcode.header ∧
    commandLength? (encode i ++ rest) = some (encode i).length

theorem EncodedLength.of_data (op : Opcode) (hf : op.format = .D) (data : List Byte)
    (h : dataFits data = true) (rest : List Word) :
    wordAt (encodeData op data ++ rest) 0 = op.header ∧
    commandLength? (encodeData op data ++ rest) = some (encodeData op data).length := by
  have hlt : data.length < 2 ^ 64 := by simpa [dataFits] using h
  refine ⟨rfl, ?_⟩
  rw [commandLength?_of_header (op := op) (by simp [encodeData]) (by simp [encodeData]) (.inl (by simp [encodeData]))]
  have hw : (BitVec.ofNat 64 data.length).toNat = data.length := by
    rw [BitVec.toNat_ofNat, Nat.mod_eq_of_lt hlt]
  simp only [encodeData, hf, Format.length, List.cons_append, wordAt_succ, wordAt_zero, hw, List.length_cons,
    packBytes_length]
  congr 1
  omega

theorem EncodedLength.new (mReq kReq : Word) : EncodedLength.Statement (.new mReq kReq) :=
  fun _ _ => ⟨rfl, rfl⟩

theorem EncodedLength.insert (data : List Byte) : EncodedLength.Statement (.insert data) :=
  fun h rest => EncodedLength.of_data .insert rfl data h rest

theorem EncodedLength.contains (data : List Byte) : EncodedLength.Statement (.contains data) :=
  fun h rest => EncodedLength.of_data .contains rfl data h rest

theorem EncodedLength.clear : EncodedLength.Statement .clear :=
  fun _ _ => ⟨rfl, rfl⟩

theorem EncodedLength.union (mO kO : Word) (img : List Word) : EncodedLength.Statement (.union mO kO img) := by
  intro h rest
  have hl : img.length = ceilDiv mO.toNat 64 := by simpa [WellFormed, imageFits] using h
  refine ⟨rfl, ?_⟩
  rw [commandLength?_of_header (op := .union) (by simp [encode]) (by simp [encode]) (.inl (by simp [encode]))]
  simp only [encode, Opcode.format, Format.length, List.cons_append, wordAt_succ, wordAt_zero, List.length_cons, hl]
  congr 1
  omega

theorem EncodedLength.clone : EncodedLength.Statement .clone :=
  fun _ _ => ⟨rfl, rfl⟩

theorem EncodedLength.capacity : EncodedLength.Statement .capacity :=
  fun _ _ => ⟨rfl, rfl⟩

theorem EncodedLength.k : EncodedLength.Statement .k :=
  fun _ _ => ⟨rfl, rfl⟩

theorem EncodedLength.derive (data : List Byte) : EncodedLength.Statement (.derive data) :=
  fun h rest => EncodedLength.of_data .derive rfl data h rest

theorem EncodedLength.locate (h0 h1 h2 h3 i m : Word) : EncodedLength.Statement (.locate h0 h1 h2 h3 i m) :=
  fun _ _ => ⟨rfl, rfl⟩

end Sys2Proof.Laws
end

