-- ==== Sys2Proof/Laws/Run.lean ====
section
/-! SUPPORT. What each event of a run can do, and that the states of runs are the reachable ones. -/

namespace Sys2Proof.Machine

@[simp] theorem Run.setState_taken (r : Run) (s : State) : (r.setState s).taken = r.taken := rfl
@[simp] theorem Run.setState_state (r : Run) (s : State) : (r.setState s).state = s := rfl
@[simp] theorem Run.setState_self (r : Run) : r.setState r.state = r := rfl
@[simp] theorem Run.start_taken (c : Config) : (Run.start c).taken = [] := rfl
@[simp] theorem Run.start_state (c : Config) : (Run.start c).state = State.resetWith c := rfl

@[simp] theorem State.settled_of_not {s : State} (h : s.rst = false) : s.settled = s := by simp [State.settled, h]
@[simp] theorem State.settled_of_rst {s : State} (h : s.rst = true) : s.settled = State.resetWith s.cfg := by
  simp [State.settled, h, State.takeReset]

theorem State.stepNext_eq_some {s t : State} : s.stepNext = some t ↔ step s = .next t := by
  unfold State.stepNext
  cases step s <;> simp

/-- All that one event can do to a run. -/
theorem Run.extend_cases {r r' : Run} {e : Event} (h : r.extend e = some r') :
    (e = .step ∧ ∃ t, step r.state = .next t ∧ r' = r.setState t) ∨
    (∃ w t, e = .send w ∧ r.state.hostSend w = some t ∧ r' = r.setState t) ∨
    (∃ w t, e = .take ∧ r.state.hostTake = some (w, t) ∧ r' = ⟨r.taken ++ [w], t⟩) ∨
    (e = .assertReset ∧ r' = r.setState r.state.hostReset) := by
  cases e with
  | step =>
    obtain ⟨t, ht, rfl⟩ := Option.map_eq_some_iff.1 h
    exact .inl ⟨rfl, t, State.stepNext_eq_some.1 ht, rfl⟩
  | send w =>
    obtain ⟨t, ht, rfl⟩ := Option.map_eq_some_iff.1 h
    exact .inr (.inl ⟨w, t, rfl, ht, rfl⟩)
  | take =>
    obtain ⟨⟨w, t⟩, ht, rfl⟩ := Option.map_eq_some_iff.1 h
    exact .inr (.inr (.inl ⟨w, t, rfl, ht, rfl⟩))
  | assertReset => exact .inr (.inr (.inr ⟨rfl, (Option.some.inj h).symm⟩))

/-- The state a run has reached stays reachable with every event. -/
theorem Run.extend_reachable {c : Config} {r r' : Run} {e : Event} (hr : Reachable c r.state)
    (h : r.extend e = some r') : Reachable c r'.state := by
  rcases Run.extend_cases h with ⟨-, t, ht, rfl⟩ | ⟨w, t, -, ht, rfl⟩ | ⟨w, t, -, ht, rfl⟩ | ⟨-, rfl⟩
  · exact .step hr ht
  · exact .send hr ht
  · exact .take hr ht
  · exact .assertReset hr

/-- Every run from reset reaches a reachable state. -/
theorem Run.extendAll_reachable {c : Config} {es : List Event} : ∀ {r r' : Run}, Reachable c r.state →
    r.extendAll es = some r' → Reachable c r'.state := by
  induction es with
  | nil => intro r r' hr h; cases h; exact hr
  | cons e es ih =>
    intro r r' hr h
    obtain ⟨q, hq, h⟩ := Option.bind_eq_some_iff.1 h
    exact ih (Run.extend_reachable hr hq) h

end Sys2Proof.Machine
end

