-- ==== Sys2Proof/Tests/Slice0.lean ====
section
/-! SUPPORT. Tests. Every expected value is copied from 95_test_vectors.md (V1 to V42, P1 to P5) or from
the worked examples of the rules, never from this model; each comment names its source.
The second half holds, for every obligation with hypotheses, a state and operands that meet them. -/

namespace Sys2Proof.Machine.Tests

/-! ## Helpers -/

def next? : Host.Outcome State Fault Refusal → Option State
  | .next t => some t
  | .fault _ => none
  | .refused _ => none

theorem of_next? {o : Host.Outcome State Fault Refusal} {t : State} (h : next? o = some t) : o = .next t := by
  cases o <;> simp_all [next?]

/-- The state of an idle block, under `M_MAX = 1024` and `L_MAX = 4096` as in P4. -/
def idle (m k : Word) (bits : Memory) : State := ⟨m, k, bits, [], [], [], false, Config.base⟩

/-- What a command answers and leaves: response words, `M`, `K`, `BITS`. -/
def does (i : Instr) (s : State) : Option (List Word × Word × Word × Memory) :=
  (next? (exec i s)).map fun t => (t.rspq, t.M, t.K, t.BITS)

def hello : List Byte := [0x68, 0x65, 0x6C, 0x6C, 0x6F]
def world : List Byte := [0x77, 0x6F, 0x72, 0x6C, 0x64]
def foo : List Byte := [0x66, 0x6F, 0x6F]
def digits16 : List Byte :=
  [0x30, 0x31, 0x32, 0x33, 0x34, 0x35, 0x36, 0x37, 0x38, 0x39, 0x61, 0x62, 0x63, 0x64, 0x65, 0x66]

/-! ## WellFormed: each check refuses an ill-formed command -/

/-- R67: no word holds the length of a string of `2^64` bytes or more. -/
theorem smoke_too_long (data : List Byte) (h : 2 ^ 64 ≤ data.length) :
    WellFormed (.insert data) = false ∧ WellFormed (.contains data) = false ∧ WellFormed (.derive data) = false := by
  have h1 : dataFits data = false := decide_eq_false (Nat.not_lt.2 h)
  exact ⟨h1, h1, h1⟩

/-- Such a string. -/
theorem smoke_too_long_exists : ∃ data : List Byte, 2 ^ 64 ≤ data.length :=
  ⟨List.replicate (2 ^ 64) 0, Nat.le_of_eq List.length_replicate.symm⟩

/-- R69: 65 bits need two image words, and 0 bits carry none. -/
theorem smoke_union_image_length :
    WellFormed (.union 65 1 [0]) = false ∧ WellFormed (.union 65 1 [0, 0, 0]) = false ∧
    WellFormed (.union 0 0 [0]) = false ∧ WellFormed (.union 65 1 [0, 0]) = true ∧
    WellFormed (.union 0 0 []) = true := by decide

/-! ## Decoding: words written out from R61 to R71 -/

theorem test_decode_new : decode [0x01, 0x20, 0x03, 0xFF] = .command (.new 32 3) [0xFF] := by decide
theorem test_decode_insert :
    decode [0x02, 0x05, 0x0000006F6C6C6568] = .command (.insert hello) [] := by decide
/-- V31's last row: padding bytes are ignored (R68). -/
theorem test_decode_insert_padding :
    decode [0x02, 0x05, 0xFFFFFF6F6C6C6568] = .command (.insert hello) [] := by decide
theorem test_decode_contains : decode [0x03, 0x03, 0x00000000006F6F66] = .command (.contains foo) [] := by decide
theorem test_decode_clear : decode [0x04] = .command .clear [] := by decide
theorem test_decode_union :
    decode [0x05, 0x41, 0x01, 0x8000000000000001, 0x1, 0x07] =
      .command (.union 65 1 [0x8000000000000001, 0x1]) [0x07] := by decide
theorem test_decode_clone : decode [0x06] = .command .clone [] := by decide
theorem test_decode_capacity : decode [0x07] = .command .capacity [] := by decide
theorem test_decode_k : decode [0x08] = .command .k [] := by decide
/-- V41: 17 bytes in three data words. -/
theorem test_decode_derive :
    decode [0x09, 0x11, 0x3736353433323130, 0x6665646362613938, 0x67] =
      .command (.derive (digits16 ++ [0x67])) [] := by decide
theorem test_decode_locate :
    decode [0x0A, 1, 2, 3, 4, 5, 1000] = .command (.locate 1 2 3 4 5 1000) [] := by decide

/-- V40: the illegal headers. -/
theorem test_decode_illegal :
    decode [0x0, 0x7] = .illegal 0x0 [0x7] ∧ decode [0x0B] = .illegal 0x0B [] ∧ decode [0xFF] = .illegal 0xFF [] ∧
    decode [0x102, 0x05] = .illegal 0x102 [0x05] ∧ decode [0x8000000000000006] = .illegal 0x8000000000000006 [] ∧
    decode [0xFFFFFFFFFFFFFFFF] = .illegal 0xFFFFFFFFFFFFFFFF [] := by decide

/-- R73: formats D and U tell their length only with `W1`. -/
theorem test_decode_incomplete :
    decode [] = .incomplete ∧ decode [0x02] = .incomplete ∧ decode [0x02, 0x09, 0x0] = .incomplete ∧
    decode [0x05, 0x0, 0x0] = .command (.union 0 0 []) [] ∧ decode [0x0A, 1, 2, 3, 4, 5] = .incomplete := by decide

/-- V41: the encoder's data words. -/
theorem test_encode_data_words :
    encode (.insert (digits16 ++ [0x67])) = [0x02, 0x11, 0x3736353433323130, 0x6665646362613938, 0x67] := by decide

/-- No two rows of the opcode table overlap. -/
theorem test_opcode_rows_disjoint :
    opcodeTable.Pairwise fun a b => (a.pattern ^^^ b.pattern) &&& (a.mask &&& b.mask) ≠ 0 := by decide

/-! ## The hash (V10, V11, V12) -/

/-- `"hello"`: the `k1` tail. -/
theorem test_hash_k1_tail : hash128 .murmur3 hello = 0x5B1E906A48AE1D19CBD8A7B341BD9B02 := by decide +kernel
/-- `"0123456789abcde"`, 15 bytes: both tails, full length. -/
theorem test_hash_k2_tail :
    hash128 .murmur3 (digits16.take 15) = 0x4FCCF50C7C544CF0A62DD5F6C0BF2351 := by decide +kernel
/-- `"0123456789abcdefg"`: one block and a `k1` tail. -/
theorem test_hash_block :
    hash128 .murmur3 (digits16 ++ [0x67]) = 0x0800F4C206C372EE8E32612DAA45F9DE := by decide +kernel
/-- V12: the first eight probes of `"hello"` modulo 1000. -/
theorem test_probes_of_hello :
    (List.range 8).map (fun i => locate (deriveWords .murmur3 hello) (BitVec.ofNat 64 i) 1000) =
      [306, 845, 898, 343, 570, 29, 82, 607] := by decide +kernel

/-! ## Commands -/

/-- V30: the clamp. -/
theorem test_new_clamps : does (.new 0 5) (idle 32 3 [2]) = some ([0x100], 1, 5, []) := by decide +kernel
/-- V30: `NEW 1025, 3` under `M_MAX = 1024`. -/
theorem test_new_refuses :
    does (.new 1025 3) (idle 65 1 [0, 63, 64]) = some ([0x103, 1025, 1024], 65, 1, [0, 63, 64]) := by decide +kernel
/-- V1, V31. -/
theorem test_insert_hello : does (.insert hello) (idle 32 3 []) = some ([0x200], 32, 3, [2, 21, 26]) := by decide +kernel
/-- V13: eight probes of `"hello"` set seven bits. -/
theorem test_insert_repeated_index :
    does (.insert hello) (idle 32 8 []) = some ([0x200], 32, 8, [2, 5, 7, 10, 21, 26, 31]) := by decide +kernel
/-- V1 step 4, V32. -/
theorem test_contains_foo :
    does (.contains foo) (idle 32 3 [2, 4, 10, 21, 26, 30]) = some ([0x300, 0], 32, 3, [2, 4, 10, 21, 26, 30]) := by
  decide +kernel
/-- V1 step 6. -/
theorem test_contains_world :
    does (.contains world) (idle 32 3 [2, 4, 10, 21, 26, 30]) = some ([0x300, 1], 32, 3, [2, 4, 10, 21, 26, 30]) := by
  decide +kernel
/-- V33. -/
theorem test_clear : does .clear (idle 32 3 [2, 4, 10, 21, 26, 30]) = some ([0x400], 32, 3, []) := by decide +kernel
/-- V34: padding bits 32 to 63 are ignored. -/
theorem test_union_or :
    does (.union 32 3 [0xFFFFFFFF20200002]) (idle 32 3 [2, 21, 26]) =
      some ([0x500], 32, 3, [1, 2, 21, 26, 29]) := by decide +kernel
/-- V34: both dimensions differ, and `m` is reported. -/
theorem test_union_mismatch :
    does (.union 64 4 [0]) (idle 32 3 [2, 21, 26]) = some ([0x501, 32, 64], 32, 3, [2, 21, 26]) ∧
    does (.union 32 4 [0]) (idle 32 3 [2, 21, 26]) = some ([0x10501, 3, 4], 32, 3, [2, 21, 26]) := by decide +kernel
/-- V35: the 65-bit filter. -/
theorem test_clone :
    does .clone (idle 65 1 [0, 63, 64]) =
      some ([0x600, 65, 1, 0x8000000000000001, 0x1], 65, 1, [0, 63, 64]) := by decide +kernel
/-- V36. -/
theorem test_capacity : does .capacity (idle 1000 1 []) = some ([0x700, 1000], 1000, 1, []) := by decide +kernel
theorem test_k : does .k (idle 1 7 []) = some ([0x800, 7], 1, 7, []) := by decide +kernel
/-- V42. -/
theorem test_derive_empty :
    does (.derive []) (idle 1 1 []) =
      some ([0x900, 0, 0, 0x7ACE5C908374FE16, 0x778867E4430E6785], 1, 1, []) := by decide +kernel
/-- V20's last row. -/
theorem test_locate_last_index :
    does (.locate 1 2 3 4 0xFFFFFFFFFFFFFFFF 1000) (idle 1 1 []) = some ([0xA00, 615], 1, 1, []) := by decide +kernel
/-- V22: `m = 0`. -/
theorem test_locate_zero_modulus :
    does (.locate 1 2 3 4 5 0) (idle 1 1 []) = some ([0x10A04], 1, 1, []) := by decide +kernel

/-! ## Steps, reset, words of the table -/

/-- V40: an illegal header is answered, and the next word is kept. -/
theorem test_step_illegal :
    next? (step { idle 32 3 [2] with cmdbuf := [0x102], cmdq := [0x05] }) =
      some { idle 32 3 [2] with rspq := [0x202], cmdq := [0x05] } := by decide +kernel

/-- R230, R231: reset in the middle of a command. -/
theorem test_step_reset :
    next? (step { idle 32 3 [2] with cmdbuf := [0x02], rspq := [0x100], rst := true }) = some State.reset := by
  decide +kernel

/-- R33. -/
theorem test_reset_values :
    State.reset.M = 1 ∧ State.reset.K = 1 ∧ State.reset.BITS = [] ∧ State.reset.cmdbuf = [] ∧ State.reset.rspq = [] := by
  decide

/-- R64: the ten assigned header words alone, operand words zero, and their two illegal neighbours. -/
theorem test_table_rows :
    (List.range 12).map (decodeTableWord 64) =
      [none, some (.new 0 0), some (.insert []), some (.contains []), some .clear, some (.union 0 0 []), some .clone,
       some .capacity, some .k, some (.derive []), some (.locate 0 0 0 0 0 0), none] := by decide +kernel

/-- A row's bits decode and run as the first command after reset. -/
theorem test_table_word :
    decodeTableWord 192 (1 + 32 * 2 ^ 64 + 3 * 2 ^ 128) = some (.new 32 3) ∧ decodeTableWord 8 0x0B = none ∧
    next? (step (State.reset.withFetchWord 192 (1 + 32 * 2 ^ 64 + 3 * 2 ^ 128))) =
      some { idle 32 3 [] with rspq := [0x100] } := by decide +kernel

/-! ## The assembler -/

/-- P1 line 2. -/
theorem test_assemble_insert :
    (assembleLine ['I', 'N', 'S', 'E', 'R', 'T', ' ', '"', 'h', 'e', 'l', 'l', 'o', '"', ' ', ';', 'x']).map AsmLine.words =
      some [0x2, 0x5, 0x6F6C6C6568] := by decide +kernel

/-- P4 line 8: `.word` carries no check. -/
theorem test_assemble_word :
    (assembleLine ['.', 'w', 'o', 'r', 'd', ' ', '0', 'x', '1', '0', '2']).map AsmLine.words = some [0x102] := by
  decide +kernel

/-- P3 line 11, `UNION 64, 3` with the one image word 0 in curly brackets; without it R76's check fails. -/
theorem test_assemble_union :
    (assembleLine (['U', 'N', 'I', 'O', 'N', ' ', '6', '4', ',', ' ', '3', ',', Char.ofNat 123, '0', Char.ofNat 125])).map
      AsmLine.words = some [0x5, 0x40, 0x3, 0x0] ∧
    assembleLine (['U', 'N', 'I', 'O', 'N', ' ', '6', '4', ',', ' ', '3', ',', Char.ofNat 123, Char.ofNat 125]) = none := by
  decide +kernel

/-- V1 step 2: the pattern string, index 0 leftmost (R56). -/
theorem test_pattern :
    (idle 32 3 [2, 21, 26]).pattern =
      ['0', '0', '1', '0', '0', '0', '0', '0', '0', '0', '0', '0', '0', '0', '0', '0',
       '0', '0', '0', '0', '0', '1', '0', '0', '0', '0', '1', '0', '0', '0', '0', '0'] := by decide +kernel

/-! ## Witnesses: the hypotheses of every obligation can be met -/

/-- Limits small enough to write out a string at `L_MAX` and one past it. -/
def tiny : Config := ⟨128, 5, .murmur3⟩

/-- An idle block with the limits of `tiny`. -/
def small (m k : Word) (bits : Memory) : State := ⟨m, k, bits, [], [], [], false, tiny⟩

theorem inv_idle {m k : Word} {bits : Memory} (h1 : 1 ≤ m.toNat) (h2 : m.toNat ≤ 1024) (h3 : 1 ≤ k.toNat)
    (h4 : Memory.wf bits) (h5 : ∀ j ∈ bits, j < m.toNat) : Inv (idle m k bits) where
  cfg_wf := show Config.wf Config.base by decide
  m_pos := h1
  m_le := h2
  k_pos := h3
  bits_wf := h4
  bits_lt := h5
  buf_framed := rfl

theorem inv_A : Inv (idle 32 3 [2, 21, 26]) :=
  inv_idle (by decide) (by decide) (by decide) (by decide) (by decide)

theorem inv_B : Inv (idle 65 1 [0, 63, 64]) :=
  inv_idle (by decide) (by decide) (by decide) (by decide) (by decide)

theorem inv_E : Inv (idle 32 3 []) :=
  inv_idle (by decide) (by decide) (by decide) (by decide) (by decide)

/-- HeaderLegalIffAssignedAndReservedZero: a legal header at each end of the range. -/
theorem witness_header : decodeHeader 0x01 = some .new ∧ decodeHeader 0x0A = some .locate := by decide

/-- CommandLengthPerFormat: an illegal header, and each format at its length and one word short. -/
theorem witness_length :
    decodeHeader 0x0B = none ∧
    (([0x04] : List Word) ≠ [] ∧ decodeHeader (wordAt [0x04] 0) = some .clear ∧ 1 ≤ ([0x04] : List Word).length) ∧
    (([0x01, 0] : List Word) ≠ [] ∧ decodeHeader (wordAt [0x01, 0] 0) = some .new ∧
      ([0x01, 0] : List Word).length < 3) ∧
    (([0x02, 9, 0, 0] : List Word) ≠ [] ∧ decodeHeader (wordAt [0x02, 9, 0, 0] 0) = some .insert ∧
      2 + ceilDiv (wordAt [0x02, 9, 0, 0] 1).toNat 8 ≤ ([0x02, 9, 0, 0] : List Word).length) ∧
    (([0x02] : List Word) ≠ [] ∧ decodeHeader (wordAt [0x02] 0) = some .insert ∧
      ([0x02] : List Word).length < 2 + ceilDiv (wordAt [0x02] 1).toNat 8) ∧
    (([0x05, 65, 1, 0] : List Word) ≠ [] ∧ decodeHeader (wordAt [0x05, 65, 1, 0] 0) = some .union ∧
      ([0x05, 65, 1, 0] : List Word).length < 3 + ceilDiv (wordAt [0x05, 65, 1, 0] 1).toNat 64) ∧
    (([0x0A, 1, 2, 3, 4, 5, 6] : List Word) ≠ [] ∧ decodeHeader (wordAt [0x0A, 1, 2, 3, 4, 5, 6] 0) = some .locate ∧
      7 ≤ ([0x0A, 1, 2, 3, 4, 5, 6] : List Word).length) := by decide

/-- DataBytesAreLittleEndianInWords: 0 bytes, 8 bytes and 9 bytes. -/
theorem witness_data_words :
    ([] : List Word).length = ceilDiv (0 : Word).toNat 8 ∧ ([0] : List Word).length = ceilDiv (8 : Word).toNat 8 ∧
    ([0, 0] : List Word).length = ceilDiv (9 : Word).toNat 8 := by decide

/-- UnionIgnoresImagePadding: 65 bits, images that differ in bit 65 only. -/
theorem witness_image_padding :
    ([1, 1] : List Word).length = ceilDiv (65 : Word).toNat 64 ∧ ([1, 3] : List Word).length = ([1, 1] : List Word).length ∧
    ∀ j < (65 : Word).toNat, (([1, 1] : List Word).getD (j / 64) 0).getLsbD (j % 64) =
      (([1, 3] : List Word).getD (j / 64) 0).getLsbD (j % 64) := by decide +kernel

/-- DecodeOfEncodeIsTheCommand. -/
theorem witness_well_formed : WellFormed (.union 65 1 [1, 1]) = true ∧ WellFormed (.insert hello) = true := by decide

/-- DecodedCommandIsWellFormed, with and without the last clause's premise. -/
theorem witness_decoded :
    (decode [0x02, 0x05, 0xFFFFFF6F6C6C6568] = .command (.insert hello) []) ∧
    (decode [0x05, 0x0, 0x0, 0x8] = .command (.union 0 0 []) [0x8] ∧ (Instr.union 0 0 []).opcode.format ≠ .D) := by decide

/-- NewBuildsEmptyFilterOrRefuses: `m_req = M_MAX`, and one more. -/
theorem witness_new :
    max (1024 : Word).toNat 1 ≤ State.reset.cfg.mMax.toNat ∧ State.reset.cfg.mMax.toNat < max (1025 : Word).toNat 1 := by
  decide

/-- InsertSetsExactlyTheProbedBits, ContainsTestsEveryProbedBit, DeriveAnswersTheFourHalves: a string of
`L_MAX` bytes at `M = 1`, and one of `L_MAX + 1`. -/
theorem witness_data_length :
    1 ≤ (small 1 1 []).M.toNat ∧ hello.length ≤ (small 1 1 []).cfg.lMax.toNat ∧
    (small 1 1 []).cfg.lMax.toNat < (hello ++ [0]).length := by decide

/-- The encoding clauses of the three format D statements: a word whose padding bytes are not zero. -/
theorem witness_carry_bytes : CarryBytes [0xFFFFFF6F6C6C6568] hello ∧ hello.length < 2 ^ 64 :=
  ⟨⟨rfl, by decide⟩, by decide⟩

/-- InsertIsMonotoneIdempotentCommutative. -/
theorem witness_insert_twice :
    (idle 32 3 []).BITS.wf ∧
    exec (.insert hello) (idle 32 3 []) = .next { idle 32 3 [2, 21, 26] with rspq := [0x200] } ∧
    exec (.insert hello) { idle 32 3 [2, 21, 26] with rspq := [0x200] } =
      .next { idle 32 3 [2, 21, 26] with rspq := [0x200, 0x200] } ∧
    exec (.insert world) { idle 32 3 [2, 21, 26] with rspq := [0x200] } =
      .next { idle 32 3 [2, 4, 10, 21, 26, 30] with rspq := [0x200, 0x200] } ∧
    exec (.insert world) (idle 32 3 []) = .next { idle 32 3 [4, 10, 30] with rspq := [0x200] } ∧
    exec (.insert hello) { idle 32 3 [4, 10, 30] with rspq := [0x200] } =
      .next { idle 32 3 [2, 4, 10, 21, 26, 30] with rspq := [0x200, 0x200] } :=
  ⟨by decide, of_next? (by decide +kernel), of_next? (by decide +kernel), of_next? (by decide +kernel),
    of_next? (by decide +kernel), of_next? (by decide +kernel)⟩

/-- NoFalseNegatives: an INSERT, a UNION and a query in between. -/
theorem witness_no_false_negatives :
    Inv (idle 32 3 []) ∧ hello.length ≤ (idle 32 3 []).cfg.lMax.toNat ∧
    exec (.insert hello) (idle 32 3 []) = .next { idle 32 3 [2, 21, 26] with rspq := [0x200] } ∧
    (∀ c ∈ [Instr.insert world, .union 32 3 [2], .k], c ≠ .clear ∧ ∀ m k, c ≠ .new m k) ∧
    performAll [.insert world, .union 32 3 [2], .k] { idle 32 3 [2, 21, 26] with rspq := [0x200] } =
      .next { idle 32 3 [1, 2, 4, 10, 21, 26, 30] with rspq := [0x200, 0x200, 0x500, 0x800, 3] } :=
  ⟨inv_E, by decide, of_next? (by decide +kernel), by simp, of_next? (by decide +kernel)⟩

/-- NothingContainedAfterClear: a UNION whose image has padding bits only comes in between. -/
theorem witness_contained_after_clear :
    Inv (idle 32 3 [2, 21, 26]) ∧ foo.length ≤ (idle 32 3 [2, 21, 26]).cfg.lMax.toNat ∧
    exec .clear (idle 32 3 [2, 21, 26]) = .next { idle 32 3 [] with rspq := [0x400] } ∧
    (∀ c ∈ [Instr.union 32 3 [0xFFFFFFFF00000000]], (∀ d, c ≠ .insert d) ∧
      ∀ m k img, c = .union m k img → ∀ j < m.toNat, (img.getD (j / 64) 0).getLsbD (j % 64) = false) ∧
    performAll [.union 32 3 [0xFFFFFFFF00000000]] { idle 32 3 [] with rspq := [0x400] } =
      .next { idle 32 3 [] with rspq := [0x400, 0x500] } := by
  refine ⟨inv_A, by decide, of_next? (by decide +kernel), ?_, of_next? (by decide +kernel)⟩
  intro c hc
  obtain rfl := List.mem_singleton.1 hc
  refine ⟨by simp, fun m k img h => ?_⟩
  cases h
  decide +kernel

/-- OneBitFilterHoldsEverything, its last clause too. -/
theorem witness_one_bit :
    (small 1 3 []).M = 1 ∧ 1 ≤ (small 1 3 []).K.toNat ∧ hello.length ≤ (small 1 3 []).cfg.lMax.toNat ∧
    foo.length ≤ (small 1 3 []).cfg.lMax.toNat ∧ (small 1 3 []).memRead 0 = some false := by decide

/-- ZeroingIsTheLoopOfBitWrites: the last bit of the store is listed. -/
theorem witness_zeroing : ∀ j ∈ (idle 65 1 [0, 63, 64]).BITS, j < (idle 65 1 [0, 63, 64]).M.toNat := by decide

/-- UnionOrsOrReportsMismatch, its three cases. -/
theorem witness_union :
    ([0, 0] : List Word).length = ceilDiv (65 : Word).toNat 64 ∧
    ((idle 32 3 []).M = 32 ∧ (idle 32 3 []).K = 3) ∧ (idle 32 3 []).M ≠ 0 ∧
    ((idle 32 3 []).M = 32 ∧ (idle 32 3 []).K ≠ 4) ∧ (idle 32 3 [31]).memRead 31 = some true := by decide

/-- UnionIsAssociativeCommutativeIdempotent: V34's A and B, and their OR. -/
theorem witness_union_laws :
    (idle 32 3 [2]).BITS.wf ∧
    (∀ j, (([0x20200002 ||| 0x40000410] : List Word).getD (j / 64) 0).getLsbD (j % 64) =
      ((([0x20200002] : List Word).getD (j / 64) 0).getLsbD (j % 64) ||
        (([0x40000410] : List Word).getD (j / 64) 0).getLsbD (j % 64))) ∧
    (next? (exec (.union 32 3 [0x20200002]) (idle 32 3 [2]))).isSome = true ∧
    (next? (exec (.union 32 3 [0x40000410]) (idle 32 3 [2]))).isSome = true ∧
    ((next? (exec (.union 32 3 [0x20200002]) (idle 32 3 [2]))).bind fun t =>
      next? (exec (.union 32 3 [0x40000410]) t)).isSome = true ∧
    ((next? (exec (.union 32 3 [0x20200002]) (idle 32 3 [2]))).bind fun t =>
      next? (exec (.union 32 3 [0x20200002]) t)).isSome = true ∧
    ((next? (exec (.union 32 3 [0x40000410]) (idle 32 3 [2]))).bind fun t =>
      next? (exec (.union 32 3 [0x20200002]) t)).isSome = true ∧
    (next? (exec (.union 32 3 [0x20200002 ||| 0x40000410]) (idle 32 3 [2]))).isSome = true := by
  refine ⟨by decide, fun j => ?_, by decide +kernel, by decide +kernel, by decide +kernel, by decide +kernel,
    by decide +kernel, by decide +kernel⟩
  cases h : j / 64 with
  | zero => simp only [List.getD_cons_zero, BitVec.getLsbD_or]
  | succ n => simp

/-- UnionKeepsMembershipOfBoth: the other filter holds the string, this one does not. -/
theorem witness_union_membership :
    Inv (idle 32 3 [2, 21, 26]) ∧ (idle 32 3 [4, 10, 30]).M = (idle 32 3 [2, 21, 26]).M ∧
    (idle 32 3 [4, 10, 30]).K = (idle 32 3 [2, 21, 26]).K ∧
    (idle 32 3 [4, 10, 30]).cfg = (idle 32 3 [2, 21, 26]).cfg ∧
    exec (.union 32 3 (idle 32 3 [4, 10, 30]).imageWords) (idle 32 3 [2, 21, 26]) =
      .next { idle 32 3 [2, 4, 10, 21, 26, 30] with rspq := [0x500] } ∧
    AnswersOnly (.contains world) (idle 32 3 [4, 10, 30]) [0x0000000000000300, 1] :=
  ⟨inv_A, rfl, rfl, rfl, of_next? (by decide +kernel), of_next? (by decide +kernel)⟩

/-- CloneImageLoadsToIdenticalFilter: the receiving block holds another filter. -/
theorem witness_clone_load :
    Inv (idle 65 1 [0, 63, 64]) ∧ (idle 65 1 [0, 63, 64]).M.toNat ≤ (idle 32 3 [2]).cfg.mMax.toNat ∧
    AnswersOnly .clone (idle 65 1 [0, 63, 64]) [0x0000000000000600, 65, 1, 0x8000000000000001, 0x1] ∧
    (idle 32 3 [2]).cfg.hash = (idle 65 1 [0, 63, 64]).cfg.hash ∧
    (idle 32 3 [2]).cfg.lMax = (idle 65 1 [0, 63, 64]).cfg.lMax ∧
    AnswersOnly (.contains []) (idle 65 1 [0, 63, 64]) [0x0000000000000300, 1] :=
  ⟨inv_B, by decide, of_next? (by decide +kernel), rfl, rfl, of_next? (by decide +kernel)⟩

/-- UnionWithOwnCloneChangesNothing, NoCommandStopsTheBlock. -/
theorem witness_inv : Inv (idle 65 1 [0, 63, 64]) := inv_B

/-- CapacityAndKReadTheRegisters, LoadAndDefaultBuildTheirFilters. -/
theorem witness_capacity_load :
    max (0 : Word).toNat 1 ≤ State.reset.cfg.mMax.toNat ∧
    (1 ≤ (1024 : Word).toNat ∧ (1024 : Word).toNat ≤ State.reset.cfg.mMax.toNat ∧ 1 ≤ (1 : Word).toNat ∧
      (List.replicate 16 (1 : Word)).length = ceilDiv (1024 : Word).toNat 64) ∧
    1 ≤ State.reset.cfg.mMax.toNat := by decide

/-- LittleEndianWordIsWeightedSum, HashAbsorbsWholeBlocksInOrder, HashOfShortStringUsesTailOnly: lengths at the ends
of each range. -/
theorem witness_hash_lengths :
    (digits16.take 8).length ≤ 8 ∧
    (digits16.length = 16 * 1 ∧ (digits16.take 8).length = 8 ∧ (digits16.drop 8).length = 8 ∧
      (digits16.take 15).length < 16) ∧
    (1 ≤ (digits16.take 1).length ∧ (digits16.take 1).length ≤ 8) ∧
    (1 ≤ (digits16.take 8).length ∧ (digits16.take 8).length ≤ 8) ∧
    ((digits16.take 8).length = 8 ∧ 1 ≤ (digits16.take 7).length ∧ (digits16.take 7).length ≤ 7) := by decide

/-- LocateFollowsTheProbeFormula, LocateCornerCases. -/
theorem witness_locate : (1 : Word) ≠ 0 ∧ (0 : Word) = 0 := by decide

/-- EveryResponseTellsItsLength, OnlyTheNamedWritersWrite, ErrorsChangeNoState: a UNION that mismatches, and
its response. -/
theorem witness_error :
    exec (.union 64 3 [0]) (idle 32 3 [2]) = .next { idle 32 3 [2] with rspq := [0x501, 32, 64] } ∧
    Emits (idle 32 3 [2]) { idle 32 3 [2] with rspq := [0x501, 32, 64] } (0x501 :: [32, 64]) ∧
    (0x501 : Word).extractLsb' 0 8 ≠ 0 :=
  ⟨of_next? (by decide +kernel), rfl, by decide⟩

/-- OnlyTheNamedWritersWrite: each of its two premises. -/
theorem witness_writers :
    exec .clear (idle 32 3 [2]) = .next { idle 32 3 [] with rspq := [0x400] } ∧
    (∀ m k, Instr.clear ≠ .new m k) ∧
    exec .k (idle 32 3 [2]) = .next { idle 32 3 [2] with rspq := [0x800, 3] } ∧ Instr.k.opcode = .k :=
  ⟨of_next? (by decide +kernel), by simp, of_next? (by decide +kernel), rfl⟩

/-- IllegalHeaderIsAnsweredAlone: OPC just below and just above the range, and a reserved bit. -/
theorem witness_illegal :
    ({ idle 32 3 [2] with cmdbuf := [0x0B, 0x07] } : State).rst = false ∧
    ({ idle 32 3 [2] with cmdbuf := [0x0B, 0x07] } : State).cmdbuf = 0x0B :: [0x07] ∧
    ¬ (1 ≤ ((0x00 : Word).extractLsb' 0 8).toNat ∧ ((0x00 : Word).extractLsb' 0 8).toNat ≤ 10 ∧
      (0x00 : Word).extractLsb' 8 56 = 0) ∧
    ¬ (1 ≤ ((0x0B : Word).extractLsb' 0 8).toNat ∧ ((0x0B : Word).extractLsb' 0 8).toNat ≤ 10 ∧
      (0x0B : Word).extractLsb' 8 56 = 0) ∧
    ¬ (1 ≤ ((0x102 : Word).extractLsb' 0 8).toNat ∧ ((0x102 : Word).extractLsb' 0 8).toNat ≤ 10 ∧
      (0x102 : Word).extractLsb' 8 56 = 0) := by
  decide

/-- DimensionsFixedBetweenNews. -/
theorem witness_no_new :
    (∀ c ∈ [Instr.clear, .insert hello], ∀ m k, c ≠ .new m k) ∧
    performAll [.clear, .insert hello] (idle 32 3 [7]) = .next { idle 32 3 [2, 21, 26] with rspq := [0x400, 0x200] } :=
  ⟨by simp, of_next? (by decide +kernel)⟩

/-- ResponseDependsOnCommandAndFilterOnly: the same filter, with other words on both channels. -/
theorem witness_same_filter :
    SameFilter (idle 32 3 [2]) { idle 32 3 [2] with rspq := [0x100], cmdq := [0x07] } ∧
    ({ idle 32 3 [2] with rspq := [0x100], cmdq := [0x07] } : State).cfg = (idle 32 3 [2]).cfg ∧
    exec .capacity (idle 32 3 [2]) = .next { idle 32 3 [2] with rspq := [0x700, 32] } :=
  ⟨⟨⟨rfl, rfl⟩, rfl⟩, rfl, of_next? (by decide +kernel)⟩

/-- BitReadAfterBitWrite: the last bit, and the first address past it. -/
theorem witness_bit_address :
    31 < (idle 32 3 [2]).M.toNat ∧ 30 ≠ 31 ∧ (idle 32 3 [2]).BITS.wf ∧ (idle 32 3 [2]).M.toNat ≤ 32 := by decide

/-- EqualReadsMeanEqualStores: two states that differ outside the store. -/
theorem witness_equal_reads :
    Inv (idle 32 3 [2, 21, 26]) ∧ Inv (idle 32 4 [2, 21, 26]) ∧
    (idle 32 4 [2, 21, 26]).M = (idle 32 3 [2, 21, 26]).M ∧
    ∀ j, (idle 32 4 [2, 21, 26]).memRead j = (idle 32 3 [2, 21, 26]).memRead j :=
  ⟨inv_A, inv_idle (by decide) (by decide) (by decide) (by decide) (by decide), rfl, fun _ => rfl⟩

/-- StepPerformsTheDecodedCommand. -/
theorem witness_step :
    ({ idle 32 3 [2] with cmdbuf := [0x07] } : State).rst = false ∧
    decode ({ idle 32 3 [2] with cmdbuf := [0x07] } : State).cmdbuf = .command .capacity [] ∧
    WellFormed .capacity = true ∧ ({ idle 32 3 [2] with cmdbuf := [0x07] } : State).cmdbuf = encode .capacity := by
  decide

/-- IncompleteCommandTakesOneWord: a word waits, and none does. -/
theorem witness_incomplete :
    (decode ({ idle 32 3 [2] with cmdbuf := [0x02], cmdq := [0] } : State).cmdbuf = .incomplete ∧
      ({ idle 32 3 [2] with cmdbuf := [0x02], cmdq := [0] } : State).rst = false ∧
      ({ idle 32 3 [2] with cmdbuf := [0x02], cmdq := [0] } : State).cmdq = 0 :: []) ∧
    (decode (idle 32 3 [2]).cmdbuf = .incomplete ∧ (idle 32 3 [2]).rst = false ∧ (idle 32 3 [2]).cmdq = []) := by decide

/-- ChannelsLoseAndReorderNothing, ResetOutcomeSameWhetherCommandRan. -/
theorem witness_channels :
    ({ idle 32 3 [2] with cmdbuf := [0x07], cmdq := [0x08] } : State).rst = false ∧
    step { idle 32 3 [2] with cmdbuf := [0x07], cmdq := [0x08] } =
      .next { idle 32 3 [2] with cmdq := [0x08], rspq := [0x700, 32] } ∧
    (idle 32 3 [2]).hostSend 0x07 = some { idle 32 3 [2] with cmdq := [0x07] } ∧
    ({ idle 32 3 [2] with rspq := [0x700, 32] } : State).hostTake = some (0x700, { idle 32 3 [2] with rspq := [32] }) :=
  ⟨rfl, of_next? (by decide +kernel), by decide, by decide⟩

/-- ResetGivesTheResetState: reset asserted in the middle of a command, and NEW 0, 0 where `M_MAX = 1`. -/
theorem witness_reset :
    ({ idle 32 3 [2] with cmdbuf := [0x02], rst := true } : State).rst = true ∧
    1 ≤ (⟨1, 5, [0], [], [], [], false, ⟨1, 0, .murmur3⟩⟩ : State).cfg.mMax.toNat ∧
    exec (.new 0 0) ⟨1, 5, [0], [], [], [], false, ⟨1, 0, .murmur3⟩⟩ =
      .next ⟨1, 1, [], [], [0x100], [], false, ⟨1, 0, .murmur3⟩⟩ :=
  ⟨rfl, by decide, of_next? (by decide +kernel)⟩

/-- InvariantHoldsAfterReset: both ends of the parameters' ranges. -/
theorem witness_config :
    Config.wf ⟨1, 0, .murmur3⟩ ∧ Config.wf ⟨0xFFFFFFFFFFFFFFFF, 0xFFFFFFFFFFFFFFFE, .other 0⟩ := by decide

/-- EveryStepKeepsTheInvariant: a step that performs a command. -/
theorem witness_inv_step :
    Inv { idle 32 3 [2, 21, 26] with cmdbuf := [0x04] } ∧
    step { idle 32 3 [2, 21, 26] with cmdbuf := [0x04] } = .next { idle 32 3 [] with rspq := [0x400] } :=
  ⟨{ inv_A with buf_framed := by decide }, of_next? (by decide +kernel)⟩

/-- EveryReachableStateMeetsTheInvariant: reset, one word sent, taken, performed, and one response word taken. -/
theorem witness_reachable :
    Config.wf Config.base ∧ Reachable Config.base { State.reset with rspq := [1] } := by
  refine ⟨by decide, ?_⟩
  have h1 : Reachable Config.base { State.reset with cmdq := [0x07] } :=
    .send (w := 0x07) .reset rfl
  have h2 : Reachable Config.base { State.reset with cmdbuf := [0x07] } :=
    .step h1 (of_next? (by decide +kernel))
  have h3 : Reachable Config.base { State.reset with rspq := [0x700, 1] } :=
    .step h2 (of_next? (by decide +kernel))
  exact .take (w := 0x700) h3 rfl

/-- SentCommandsArePerformedInOrder: two commands and a word of a later one. -/
theorem witness_sent :
    (∀ c ∈ [Instr.insert hello, .k], WellFormed c = true) ∧
    ({ idle 32 3 [] with cmdq := [0x02, 0x05, 0x0000006F6C6C6568, 0x08, 0x01] } : State).cmdq =
      [Instr.insert hello, .k].flatMap encode ++ [0x01] ∧
    ({ idle 32 3 [] with cmdq := [0x02, 0x05, 0x0000006F6C6C6568, 0x08, 0x01] } : State).rst = false ∧
    ({ idle 32 3 [] with cmdq := [0x02, 0x05, 0x0000006F6C6C6568, 0x08, 0x01] } : State).cmdbuf = [] := by decide

/-- P1 lines 1 and 2 as a run with takes in between: what the host took, what it can still take, the filter. -/
theorem test_run_outcome :
    ((Run.start Config.base).extendAll
      [.send 0x01, .send 0x20, .step, .step, .send 0x03, .step, .send 0x02, .step, .take, .send 0x05, .step,
       .send 0x6F6C6C6568, .step, .step, .step]).map Run.outcome =
      some ⟨[0x100, 0x200], 32, 3, [0x4200004]⟩ := by decide +kernel

/-- OutcomeIsThatOfTheCommandsSent: K is performed, and the first word of a NEW is left in `cmdbuf`. -/
theorem witness_outcome :
    Quiescent (Run.start Config.base).state ∧ (∀ i ∈ [Instr.k], WellFormed i = true) ∧
    WellFormed (.new 32 3) = true ∧ 1 < (encode (.new 32 3)).length ∧
    Event.assertReset ∉ [Event.send 0x08, .step, .send 0x01, .step, .take, .step] ∧
    sentWords [.send 0x08, .step, .send 0x01, .step, .take, .step] = [Instr.k].flatMap encode ++ (encode (.new 32 3)).take 1 ∧
    (Run.start Config.base).extendAll [.send 0x08, .step, .send 0x01, .step, .take, .step] =
      some ⟨[0x800], { State.reset with cmdbuf := [0x01], rspq := [1] }⟩ := by decide +kernel

/-- FinalCloneReadsTheOutcome, and OutcomeHidesTakesStallsAndResets: a take, an idle step, a pending reset, and
a step that performs a command with reset asserted before or after it. -/
theorem witness_outcome_hides :
    Quiescent (idle 32 3 [2]) ∧
    (Run.mk [] { idle 32 3 [2] with rspq := [1, 2] }).extend .take = some ⟨[1], { idle 32 3 [2] with rspq := [2] }⟩ ∧
    (Run.mk [] (idle 32 3 [2])).extend .step = some ⟨[], idle 32 3 [2]⟩ ∧
    (Run.mk [7] { idle 32 3 [2] with rspq := [1], rst := true }).extend .step = some ⟨[7], State.reset⟩ ∧
    (Run.mk [] { idle 32 3 [2] with cmdbuf := [0x04] }).extend .step =
      some ⟨[], { idle 32 3 [] with rspq := [0x400] }⟩ ∧
    (Run.mk [] { idle 32 3 [2] with cmdbuf := [0x04] }).extend .assertReset =
      some ⟨[], { idle 32 3 [2] with cmdbuf := [0x04], rst := true }⟩ ∧
    (Run.mk [] { idle 32 3 [] with rspq := [0x400] }).extend .assertReset =
      some ⟨[], { idle 32 3 [] with rspq := [0x400], rst := true }⟩ := by decide +kernel

/-- AssembledLineDecodesToItsCommand, AssemblerIgnoresComments. -/
theorem witness_assembler :
    assembleLine ['K', ' '] = some (.command .k) ∧ '"' ∉ ['K', ' '] ∧ ';' ∉ ['K', ' '] := by decide +kernel

end Sys2Proof.Machine.Tests
end

