-- ==== Sys2Proof/Proofs/BitStore.lean ====
section
/-! PROOF. The read-after-write laws of R11's two primitives, lifted from the store to the state. -/

namespace Sys2Proof.Machine

/-- The control registers are not part of the store (R20, R21, R22). -/
theorem State.sameDims_setBits (s : State) (mem : Memory) : SameDims s (s.setBits mem) := ⟨rfl, rfl⟩

theorem State.sameInterface_setBits (s : State) (mem : Memory) : SameInterface s (s.setBits mem) :=
  ⟨rfl, rfl, rfl, rfl⟩

/-- `MemRead(x, 1)` after `MemWrite(j, 1, b)` (R11), for every address `x`, in range or not. -/
theorem State.memRead_setBits_write {s : State} {j : Nat} (hj : j < s.M.toNat) (b : Bool) (x : Nat) :
    (s.setBits (s.BITS.write j b)).memRead x = if x = j then some b else s.memRead x := by
  rw [State.memRead_eq, State.setBits_M, State.setBits_BITS, Memory.read_write]
  by_cases hx : x = j
  · simp [hx, hj]
  · simp [hx, State.memRead_eq]

/-- Settles O37: in range the write replaces the store alone, and `State.memRead_setBits_write` gives
every read after it; out of range neither primitive is defined. -/
theorem bitReadAfterBitWrite : Obligations.BitReadAfterBitWrite := by
  intro s j b
  constructor
  · intro hj
    refine ⟨s.setBits (s.BITS.write j b), State.memWrite_of_lt hj b, ?same, fun x hx => ?other,
      Memory.write_wf s.BITS j b, s.sameDims_setBits _, s.sameInterface_setBits _⟩
    case same => rw [State.memRead_setBits_write hj, if_pos rfl]
    case other => rw [State.memRead_setBits_write hj, if_neg hx]
  · intro hj
    exact ⟨State.memWrite_of_le hj b, State.memRead_of_le hj⟩

end Sys2Proof.Machine
end

/-! PROOF. The invariant: what each update and each command keeps of it, its base at reset, its
preservation by the step, and its extension to every reachable state. -/

namespace Sys2Proof.Machine

/-! ## Framing of the command buffer (R29, R41, R73) -/

theorem framed_iff (ws : List Word) :
    framed ws = true ↔ ∀ n, commandLength? ws = some n → ws.length ≤ n := by
  unfold framed
  cases commandLength? ws <;> simp

/-- Nothing is left of a framed buffer once its command is taken out of it. -/
theorem drop_eq_nil_of_framed {ws : List Word} {n : Nat} (hf : framed ws = true)
    (hl : commandLength? ws = some n) : ws.drop n = [] :=
  List.drop_eq_nil_of_le ((framed_iff ws).1 hf n hl)

/-- After the command that a framed buffer holds come no further words (R41). -/
theorem rest_eq_nil_of_framed {ws rest : List Word} (hf : framed ws = true)
    (hd : (∃ i, decode ws = .command i rest) ∨ ∃ w0, decode ws = .illegal w0 rest) : rest = [] := by
  obtain ⟨he, -⟩ | ⟨n, hl, -, -, he⟩ | ⟨n, op, hl, -, -, he⟩ := decode_cases ws
  case inl => simp [he] at hd
  all_goals
    have hrest : ws.drop n = rest := by simpa [he] using hd
    exact hrest ▸ drop_eq_nil_of_framed hf hl

/-- A header whose length only `W1` tells begins a command of at least two words (R73). -/
theorem two_le_of_commandLength?_pair {w0 w1 : Word} {n : Nat} (h0 : commandLength? [w0] = none)
    (h1 : commandLength? [w0, w1] = some n) : 2 ≤ n := by
  cases hh : decodeHeader w0 with
  | none => simp [commandLength?, hh] at h0
  | some op =>
    cases hf : op.format <;> simp [commandLength?, hh, hf, Format.length] at h0 h1
    case D => omega
    case U => omega

/-- One more word on an incomplete command does not run past the command's end, so taking words one
at a time (R41) never overfills the buffer. -/
theorem framed_append_of_incomplete {ws : List Word} (h : decode ws = .incomplete) (w : Word) :
    framed (ws ++ [w]) = true := by
  obtain ⟨-, hshort⟩ | ⟨_, -, -, -, hd⟩ | ⟨_, _, -, -, -, hd⟩ := decode_cases ws
  case' inr.inl => cases hd.symm.trans h
  case' inr.inr => cases hd.symm.trans h
  rw [framed_iff]
  intro m hm
  cases hl : commandLength? ws with
  | some n =>
    have hmn : n = m := Option.some.inj ((commandLength?_append hl [w]).symm.trans hm)
    have := hshort n hl
    simp only [List.length_append, List.length_singleton]
    omega
  | none =>
    match ws, hl with
    | [], _ => exact commandLength?_pos hm
    | [w0], hl => exact two_le_of_commandLength?_pair hl hm
    | w0 :: w1 :: rest, hl =>
      obtain ⟨n, hn⟩ := commandLength?_isSome (ws := w0 :: w1 :: rest) (by simp)
      rw [hl] at hn; cases hn

/-! ## What each update keeps of the invariant -/

theorem Inv.send {s : State} (h : Inv s) (ws : List Word) : Inv (s.send ws) := { h with }

theorem Inv.setCmdq {s : State} (h : Inv s) (ws : List Word) : Inv (s.setCmdq ws) := { h with }

theorem Inv.setRspq {s : State} (h : Inv s) (ws : List Word) : Inv { s with rspq := ws } := { h with }

theorem Inv.hostReset {s : State} (h : Inv s) : Inv s.hostReset := { h with }

theorem Inv.setBuf {s : State} (h : Inv s) {ws : List Word} (hf : framed ws = true) :
    Inv (s.setBuf ws) := { h with buf_framed := hf }

theorem Inv.setBits {s : State} (h : Inv s) {mem : Memory} (hw : mem.wf)
    (hlt : ∀ j ∈ mem, j < s.M.toNat) : Inv (s.setBits mem) := { h with bits_wf := hw, bits_lt := hlt }

theorem Inv.zeroStore {s : State} (h : Inv s) : Inv s.zeroStore :=
  h.setBits Memory.zero_wf (by simp [Memory.zero])

theorem Inv.setBits_of_grows {s : State} (h : Inv s) {mem : Memory} (hg : Grows s mem) :
    Inv (s.setBits mem) :=
  h.setBits (hg.wf h.bits_wf) fun j hj => (hg.bound j hj).elim (h.bits_lt j) id

/-- New dimensions need a new store: the old one may hold bits past the new `M` (R150). -/
theorem Inv.setDims_zeroStore {s : State} (h : Inv s) {m k : Word} (hm : 1 ≤ m.toNat)
    (hle : m.toNat ≤ s.cfg.mMax.toNat) (hk : 1 ≤ k.toNat) : Inv (s.setDims m k).zeroStore :=
  { h with
    m_pos := hm
    m_le := hle
    k_pos := hk
    bits_wf := Memory.zero_wf
    bits_lt := by simp [State.zeroStore, Memory.zero] }

/-- Under the invariant the bits listed are exactly those `MemRead` answers 1 for (R22, R28). -/
theorem Inv.read_iff_memRead {s : State} (h : Inv s) (j : Nat) :
    s.BITS.read j = true ↔ s.memRead j = some true := by
  rw [State.memRead_eq_some, Memory.read_iff]
  exact ⟨fun hj => ⟨h.bits_lt j hj, hj⟩, And.right⟩

/-! ## Commands -/

theorem one_le_clampToOne (v : Word) : 1 ≤ (clampToOne v).toNat := by
  unfold clampToOne
  split
  · decide
  · rename_i hv
    exact Nat.pos_of_ne_zero fun h0 => hv (BitVec.eq_of_toNat_eq h0)

/-- NEW within the capacity (R150, R151). -/
theorem exec_new_of_le {m k : Word} {s : State} (h : (clampToOne m).toNat ≤ s.cfg.mMax.toNat) :
    exec (.new m k) s =
      .next (((s.setDims (clampToOne m) (clampToOne k)).zeroStore).respond .new []) := by
  simp [exec, execNew, Nat.not_lt.2 h]

/-- R47: no command touches the received words, the command channel, the reset input or the parameters. -/
theorem exec_sameInterface {i : Instr} {s t : State} (h : exec i s = .next t) : SameInterface s t := by
  obtain ⟨_, rfl⟩ | ⟨_, _, -, -, rfl⟩ | ⟨-, rfl⟩ | ⟨-, _, -, rfl⟩ := exec_cases h <;>
    exact ⟨rfl, rfl, rfl, rfl⟩

/-- R27: only NEW writes the two control registers. -/
theorem exec_sameDims {i : Instr} {s t : State} (hi : ∀ m k, i ≠ .new m k) (h : exec i s = .next t) :
    SameDims s t := by
  obtain ⟨_, rfl⟩ | ⟨m, k, rfl, -, -⟩ | ⟨-, rfl⟩ | ⟨-, _, -, rfl⟩ := exec_cases h
  case inr.inl => exact absurd rfl (hi m k)
  all_goals exact ⟨rfl, rfl⟩

theorem exec_keeps_inv {i : Instr} {s t : State} (hs : Inv s) (h : exec i s = .next t) : Inv t := by
  obtain ⟨rsp, rfl⟩ | ⟨m, k, -, hle, rfl⟩ | ⟨-, rfl⟩ | ⟨-, mem, hg, rfl⟩ := exec_cases h
  · exact hs.send rsp
  · exact (hs.setDims_zeroStore (one_le_clampToOne m) hle (one_le_clampToOne k)).send _
  · exact hs.zeroStore.send _
  · exact (hs.setBits_of_grows hg).send _

theorem SameDims.trans {s t u : State} (h₁ : SameDims s t) (h₂ : SameDims t u) : SameDims s u :=
  ⟨h₂.1.trans h₁.1, h₂.2.trans h₁.2⟩

/-- The first command of a list that is performed to its end answers a next state. -/
theorem performAll_cons_eq_next {i : Instr} {cs : List Instr} {s t : State} :
    performAll (i :: cs) s = .next t ↔ ∃ u, exec i s = .next u ∧ performAll cs u = .next t := by
  rw [performAll]
  cases exec i s <;> simp

/-! ## Steps -/

/-- All that a step can do when it answers a next state. -/
theorem step_cases {s t : State} (h : step s = .next t) :
    (s.rst = true ∧ t = State.resetWith s.cfg) ∨
    (s.rst = false ∧ ∃ i rest, decode s.cmdbuf = .command i rest ∧ exec i (s.setBuf rest) = .next t) ∨
    (s.rst = false ∧ ∃ w0 rest, decode s.cmdbuf = .illegal w0 rest ∧
      t = illegalCommand w0 (s.setBuf rest)) ∨
    (s.rst = false ∧ decode s.cmdbuf = .incomplete ∧ t = s.takeWord) := by
  obtain ⟨hr, ht⟩ | ⟨hr, i, rest, hd, ht⟩ | ⟨hr, w0, rest, hd, ht⟩ | ⟨hr, hd, ht⟩ := s.turn_cases <;>
    rw [step, ht] at h
  · exact .inl ⟨hr, by cases h; rfl⟩
  · exact .inr (.inl ⟨hr, i, rest, hd, h⟩)
  · exact .inr (.inr (.inl ⟨hr, w0, rest, hd, by cases h; rfl⟩))
  · exact .inr (.inr (.inr ⟨hr, hd, by cases h; rfl⟩))

theorem step_of_rst {s : State} (h : s.rst = true) : step s = .next (State.resetWith s.cfg) := by
  simp [step, State.turn, h, State.takeReset]

theorem State.takeWord_cfg (s : State) : s.takeWord.cfg = s.cfg := by
  obtain ⟨-, ht⟩ | ⟨_, _, -, ht⟩ := s.takeWord_cases
  · rw [ht]
  · rw [ht]; rfl

/-- R32: no step changes the parameters. -/
theorem step_cfg {s t : State} (h : step s = .next t) : t.cfg = s.cfg := by
  obtain ⟨-, rfl⟩ | ⟨-, i, rest, -, he⟩ | ⟨-, w0, rest, -, rfl⟩ | ⟨-, -, rfl⟩ := step_cases h
  · rfl
  · obtain ⟨-, -, -, hcfg⟩ := exec_sameInterface he
    exact hcfg
  · rfl
  · exact s.takeWord_cfg

theorem Inv.takeWord {s : State} (h : Inv s) (hd : decode s.cmdbuf = .incomplete) : Inv s.takeWord := by
  obtain ⟨-, ht⟩ | ⟨w, q, -, ht⟩ := s.takeWord_cases <;> rw [ht]
  · exact h
  · exact (h.setBuf (framed_append_of_incomplete hd w)).setCmdq q

/-- R33: one zero bit, one probe and an empty buffer. -/
theorem inv_resetWith {c : Config} (hc : c.wf) : Inv (State.resetWith c) where
  cfg_wf := hc
  m_pos := le_refl 1
  m_le := hc.1
  k_pos := le_refl 1
  bits_wf := Memory.zero_wf
  bits_lt := by simp [Memory.zero]
  buf_framed := rfl

/-! ## The host's actions (R40, R230) -/

theorem State.hostSend_eq_some {s t : State} {w : Word} (h : s.hostSend w = some t) :
    t = s.setCmdq (s.cmdq ++ [w]) := by
  unfold State.hostSend at h
  split at h
  · cases h
  · exact (Option.some.inj h).symm

theorem State.hostTake_eq_some {s t : State} {w : Word} (h : s.hostTake = some (w, t)) :
    ∃ rest, s.rspq = w :: rest ∧ t = { s with rspq := rest } := by
  unfold State.hostTake at h
  split at h
  · cases h
  · rename_i v rest hq
    cases h
    exact ⟨rest, hq, rfl⟩

/-! ## The obligations -/

/-- Settles O45: reset restores the base, a command keeps the invariant and leaves the buffer empty,
and a word is taken only into an incomplete command. -/
theorem everyStepKeepsTheInvariant : Obligations.EveryStepKeepsTheInvariant := by
  intro s t hs h
  obtain ⟨-, rfl⟩ | ⟨-, i, rest, hd, he⟩ | ⟨-, w0, rest, hd, rfl⟩ | ⟨-, hd, rfl⟩ := step_cases h
  · exact inv_resetWith hs.cfg_wf
  · obtain rfl : rest = [] := rest_eq_nil_of_framed hs.buf_framed (.inl ⟨i, hd⟩)
    exact exec_keeps_inv (hs.setBuf rfl) he
  · obtain rfl : rest = [] := rest_eq_nil_of_framed hs.buf_framed (.inr ⟨w0, hd⟩)
    exact (hs.setBuf rfl).send _
  · exact hs.takeWord hd

/-- Settles O44, from `inv_resetWith`; the parameters of `State.reset` are legal. -/
theorem invariantHoldsAfterReset : Obligations.InvariantHoldsAfterReset :=
  ⟨fun _ => inv_resetWith, inv_resetWith (by decide)⟩

/-- Settles O47, by induction on the run: the base is O44, the step is O45, and the host's actions
touch nothing the invariant speaks of. -/
theorem everyReachableStateMeetsTheInvariant : Obligations.EveryReachableStateMeetsTheInvariant := by
  intro c s hc hr
  induction hr with
  | reset => exact ⟨inv_resetWith hc, rfl⟩
  | step _ h ih =>
    obtain ⟨hs, hcfg⟩ := ih
    exact ⟨everyStepKeepsTheInvariant _ _ hs h, (step_cfg h).trans hcfg⟩
  | send _ h ih =>
    obtain ⟨hs, hcfg⟩ := ih
    rw [State.hostSend_eq_some h]
    exact ⟨hs.setCmdq _, hcfg⟩
  | take _ h ih =>
    obtain ⟨hs, hcfg⟩ := ih
    obtain ⟨rest, -, rfl⟩ := State.hostTake_eq_some h
    exact ⟨hs.setRspq rest, hcfg⟩
  | assertReset _ ih =>
    obtain ⟨hs, hcfg⟩ := ih
    exact ⟨hs.hostReset, hcfg⟩

/-- Settles O35, by induction on the list of commands, each of which keeps the dimensions. -/
theorem dimensionsFixedBetweenNews : Obligations.DimensionsFixedBetweenNews := by
  intro cs
  induction cs with
  | nil =>
    intro s t _ h
    cases h
    exact ⟨rfl, rfl⟩
  | cons i cs ih =>
    intro s t hnew h
    obtain ⟨hi, hcs⟩ := List.forall_mem_cons.1 hnew
    obtain ⟨u, hu, ht⟩ := performAll_cons_eq_next.1 h
    exact (exec_sameDims hi hu).trans (ih u t hcs ht)

/-- Settles O38: what `MemRead` answers fixes every bit of the two canonical stores. -/
theorem equalReadsMeanEqualStores : Obligations.EqualReadsMeanEqualStores := by
  intro s t hs ht _ h
  refine Memory.ext_of_wf ht.bits_wf hs.bits_wf fun j => ?_
  rw [Bool.eq_iff_iff, ht.read_iff_memRead, hs.read_iff_memRead, h j]

/-- Settles O42: the step on an asserted reset input gives `State.resetWith`, whose one bit is 0, and
NEW clamps both of its zeros to 1. -/
theorem resetGivesTheResetState : Obligations.ResetGivesTheResetState := by
  refine ⟨fun s hs => ?step, ?reset, fun s t hm h => ?new⟩
  case step =>
    exact ⟨_, step_of_rst hs, rfl, rfl, rfl, fun j hj => State.memRead_of_le hj, rfl, rfl, rfl⟩
  case reset => exact ⟨rfl, rfl, rfl, rfl, rfl⟩
  case new =>
    rw [exec_new_of_le (m := 0) hm] at h
    cases h
    exact ⟨⟨rfl, rfl⟩, rfl⟩

end Sys2Proof.Machine

/-! PROOF. The block at its channels: decoding what the encoder wrote, the independence of a command
from the channels (R49), and the step as the taking of words and the performing of commands (R41). -/

namespace Sys2Proof

/-! ## Decoding what the encoder wrote (R65 to R76) -/

/-- R73's length rule, per instruction in `Laws.EncodedLength`, for every command. -/
theorem encodedLength (i : Instr) : Laws.EncodedLength.Statement i := by
  cases i with
  | new m k => exact Laws.EncodedLength.new m k
  | insert data => exact Laws.EncodedLength.insert data
  | contains data => exact Laws.EncodedLength.contains data
  | clear => exact Laws.EncodedLength.clear
  | union m k img => exact Laws.EncodedLength.union m k img
  | clone => exact Laws.EncodedLength.clone
  | capacity => exact Laws.EncodedLength.capacity
  | k => exact Laws.EncodedLength.k
  | derive data => exact Laws.EncodedLength.derive data
  | locate h0 h1 h2 h3 j m => exact Laws.EncodedLength.locate h0 h1 h2 h3 j m

theorem commandLength?_encode {i : Instr} (hi : WellFormed i = true) :
    commandLength? (encode i) = some (encode i).length := by
  simpa using (encodedLength i hi []).2

/-- R68: the data words spell the string they were packed from. -/
theorem dataOperand_encodeData (op : Opcode) {data : List Byte} (h : dataFits data = true)
    (more : List Word) : dataOperand (encodeData op data ++ more) = data := by
  have hlt : data.length < 2 ^ 64 := by simpa [dataFits] using h
  have hlen : (wordAt (encodeData op data ++ more) 1).toNat = data.length := Nat.mod_eq_of_lt hlt
  rw [dataOperand, hlen]
  exact unpackBytes_packBytes data more

/-- R69: exactly the image words are read. -/
theorem imageOperand_encode_union {mO kO : Word} {img : List Word} (h : imageFits mO img = true)
    (more : List Word) : imageOperand (encode (.union mO kO img) ++ more) = img := by
  have hlen : img.length = ceilDiv mO.toNat 64 := by simpa [imageFits] using h
  exact List.take_left' hlen

theorem assembleOperands_encode {i : Instr} (hi : WellFormed i = true) (more : List Word) :
    assembleOperands i.opcode (encode i ++ more) = i := by
  cases i with
  | insert data => exact congrArg Instr.insert (dataOperand_encodeData _ hi more)
  | contains data => exact congrArg Instr.contains (dataOperand_encodeData _ hi more)
  | derive data => exact congrArg Instr.derive (dataOperand_encodeData _ hi more)
  | union mO kO img => exact congrArg (Instr.union mO kO) (imageOperand_encode_union hi more)
  | new | clear | clone | capacity | k | locate => rfl

/-- The decoder reads back a well-formed command from its words, and leaves the words after it. -/
theorem decode_encode_append {i : Instr} (hi : WellFormed i = true) (more : List Word) :
    decode (encode i ++ more) = .command i more := by
  obtain ⟨hhead, hlen⟩ := encodedLength i hi more
  rw [decode_of_length (op := i.opcode) hlen (by simp) (by rw [hhead, decodeHeader_header]),
    assembleOperands_encode hi, List.drop_left]

/-- Too few words of a command whose length is known are incomplete: the length they tell, if any,
is the same (R73). -/
theorem decode_incomplete_of_lt {ws more : List Word} {n : Nat}
    (hl : commandLength? (ws ++ more) = some n) (hlt : ws.length < n) : decode ws = .incomplete := by
  cases hw : commandLength? ws with
  | none => simp [decode, hw]
  | some m =>
    obtain rfl : m = n := Option.some.inj ((commandLength?_append hw more).symm.trans hl)
    simp [decode, hw, hlt]

end Sys2Proof

namespace Sys2Proof.Machine

/-! ## Sequencing outcomes -/

/-- Go on from the next state, or stop as `o` stops. -/
def andThen (o : Host.Outcome State Fault Refusal) (f : State → Host.Outcome State Fault Refusal) :
    Host.Outcome State Fault Refusal :=
  match o with
  | .next t => f t
  | .fault r => .fault r
  | .refused r => .refused r

@[simp] theorem andThen_next (t : State) (f : State → Host.Outcome State Fault Refusal) :
    andThen (.next t) f = f t := rfl

theorem andThen_congr {o : Host.Outcome State Fault Refusal}
    {f g : State → Host.Outcome State Fault Refusal} (h : ∀ t, o = .next t → f t = g t) :
    andThen o f = andThen o g := by
  cases o with
  | next t => exact h t rfl
  | fault r => rfl
  | refused r => rfl

theorem andThen_assoc (o : Host.Outcome State Fault Refusal)
    (f g : State → Host.Outcome State Fault Refusal) :
    andThen (andThen o f) g = andThen o fun t => andThen (f t) g := by
  cases o <;> rfl

theorem performAll_cons (i : Instr) (cs : List Instr) (s : State) :
    performAll (i :: cs) s = andThen (exec i s) (performAll cs) := by
  rw [performAll]
  cases exec i s <;> rfl

/-- One step more of any machine, the step first. -/
theorem coreRun_succ (c : Host.Core) (n : Nat) (s : c.State) :
    c.run (n + 1) s =
      match c.step s with
      | .next t => c.run n t
      | .fault r => .fault r
      | .refused r => .refused r := rfl

/-- `Host.Core.run` of the model's machine, on the model's own state. -/
def runSteps (n : Nat) (s : State) : Host.Outcome State Fault Refusal := core.run n s

theorem runSteps_succ (n : Nat) (s : State) : runSteps (n + 1) s = andThen (step s) (runSteps n) := by
  have hstep : core.step s = step s := rfl
  refine (coreRun_succ core n s).trans ?_
  rw [hstep]
  cases step s <;> rfl

/-! ## A command does not see the channels (R49) -/

/-- The filter and the parameters of `s` at the interface of `u`, with the responses of `s` after
those of `u`. -/
def State.onto (u s : State) : State :=
  { s with cmdbuf := u.cmdbuf, rspq := u.rspq ++ s.rspq, cmdq := u.cmdq, rst := u.rst }

/-- The same filter and parameters with no response waiting. -/
def State.noResponses (s : State) : State := { s with rspq := [] }

/-- States that agree on the filter and the parameters are one state at two interfaces. -/
theorem State.onto_noResponses_of_sameFilter {s s' : State} (h : SameFilter s s') (hc : s'.cfg = s.cfg) :
    s'.onto s.noResponses = s' := by
  obtain ⟨⟨hM, hK⟩, hB⟩ := h
  simp [State.onto, State.noResponses, ← hM, ← hK, ← hB, ← hc]

theorem State.onto_send (u s : State) (ws : List Word) : (u.onto s).send ws = u.onto (s.send ws) := by
  simp [State.onto, State.send]

theorem State.onto_memRead (u s : State) (j : Nat) : (u.onto s).memRead j = s.memRead j := rfl

theorem State.onto_memWrite (u s : State) (j : Nat) (b : Bool) :
    (u.onto s).memWrite j b = (s.memWrite j b).map u.onto := by
  by_cases hj : j < s.M.toNat
  · rw [State.memWrite_of_lt hj, State.memWrite_of_lt (s := u.onto s) hj]; rfl
  · have hle := Nat.not_lt.1 hj
    rw [State.memWrite_of_le hle, State.memWrite_of_le (s := u.onto s) hle]; rfl

theorem State.onto_setProbes (u s : State) (h : HashWords) (n : Nat) :
    (u.onto s).setProbes h n = (s.setProbes h n).map u.onto := by
  induction n with
  | zero => rfl
  | succ n ih =>
    rw [State.setProbes, State.setProbes, ih]
    cases s.setProbes h n with
    | none => rfl
    | some t => exact State.onto_memWrite u t _ true

theorem State.onto_allProbesSet (u s : State) (h : HashWords) (n i : Nat) :
    (u.onto s).allProbesSet h n i = s.allProbesSet h n i := by
  induction n generalizing i with
  | zero => rfl
  | succ n ih =>
    have hp : (u.onto s).probe h i = s.probe h i := rfl
    simp only [State.allProbesSet, hp, State.onto_memRead, ih]

theorem State.onto_orImage (u s : State) (img : List Word) (n : Nat) :
    (u.onto s).orImage img n = (s.orImage img n).map u.onto := by
  induction n with
  | zero => rfl
  | succ n ih =>
    rw [State.orImage, State.orImage, ih]
    cases s.orImage img n with
    | none => rfl
    | some t =>
      simp only [Option.map_some, Option.bind_some, State.onto_memRead]
      cases t.memRead n with
      | none => rfl
      | some b => exact State.onto_memWrite u t n _

theorem State.onto_cloneWord (u s : State) (w n : Nat) : (u.onto s).cloneWord w n = s.cloneWord w n := by
  induction n with
  | zero => rfl
  | succ n ih => simp only [State.cloneWord, State.onto_memRead, ih]

theorem State.onto_imageWords (u s : State) : (u.onto s).imageWords = s.imageWords :=
  List.map_congr_left fun w _ => u.onto_cloneWord s w 64

/-- The end of a command that answers or refuses, at the interface of `u`. -/
theorem next_onto_send (u s : State) (ws : List Word) :
    Host.Outcome.next ((u.onto s).send ws) = andThen (.next (s.send ws)) fun t => .next (u.onto t) :=
  congrArg Host.Outcome.next (u.onto_send s ws)

/-- The end of a command that writes the store by a loop, at the interface of `u`. -/
theorem finish_onto_respond (u : State) (r : Option State) (op : Opcode) :
    finish (r.map u.onto) (fun t => t.respond op []) =
      andThen (finish r fun t => t.respond op []) fun t => .next (u.onto t) := by
  cases r with
  | none => rfl
  | some t => exact next_onto_send u t _

theorem ite_andThen (c : Prop) [Decidable c] {a b a' b' : Host.Outcome State Fault Refusal}
    {f : State → Host.Outcome State Fault Refusal} (ha : a' = andThen a f) (hb : b' = andThen b f) :
    (if c then a' else b') = andThen (if c then a else b) f := by
  by_cases hc : c
  · simpa only [if_pos hc] using ha
  · simpa only [if_neg hc] using hb

/-- R49: performing a command at another interface gives the same result at that interface, with
the same response after the responses already there. -/
theorem exec_onto (u : State) (i : Instr) (s : State) :
    exec i (u.onto s) = andThen (exec i s) fun t => .next (u.onto t) := by
  cases i with
  | new m k =>
    exact ite_andThen _ (next_onto_send u s _)
      (next_onto_send u (s.setDims (clampToOne m) (clampToOne k)).zeroStore _)
  | insert data =>
    refine ite_andThen _ (next_onto_send u s _) ?_
    rw [← finish_onto_respond, ← State.onto_setProbes]
    rfl
  | contains data =>
    refine ite_andThen _ (next_onto_send u s _) ?_
    rw [State.onto_allProbesSet]
    change finish (s.allProbesSet (deriveWords s.cfg.hash data) s.K.toNat 0) _ = _
    cases s.allProbesSet (deriveWords s.cfg.hash data) s.K.toNat 0 with
    | none => rfl
    | some found => exact next_onto_send u s _
  | clear => exact next_onto_send u s.zeroStore _
  | union mO kO img =>
    refine ite_andThen _ (next_onto_send u s _) (ite_andThen _ (next_onto_send u s _) ?_)
    rw [← finish_onto_respond, ← State.onto_orImage]
    rfl
  | clone =>
    rw [exec, execClone, State.onto_imageWords]
    exact next_onto_send u s _
  | capacity => exact next_onto_send u s _
  | k => exact next_onto_send u s _
  | derive data => exact ite_andThen _ (next_onto_send u s _) (next_onto_send u s _)
  | locate h0 h1 h2 h3 j m => exact ite_andThen _ (next_onto_send u s _) (next_onto_send u s _)

/-- A command neither reads nor writes the command channel. -/
theorem exec_setCmdq (i : Instr) (s : State) (q : List Word) :
    exec i (s.setCmdq q) = andThen (exec i s) fun t => .next (t.setCmdq q) := by
  have honto := exec_onto (s.setCmdq q).noResponses i s
  rw [show (s.setCmdq q).noResponses.onto s = s.setCmdq q from rfl] at honto
  rw [honto]
  refine andThen_congr fun t ht => ?_
  obtain ⟨hbuf, -, hrst, -⟩ := exec_sameInterface ht
  simp [State.onto, State.noResponses, State.setCmdq, hbuf, hrst]

/-! ## Steps out of reset (R41) -/

theorem step_of_command {s : State} {i : Instr} {rest : List Word} (hr : s.rst = false)
    (hd : decode s.cmdbuf = .command i rest) : step s = exec i (s.setBuf rest) := by
  simp [step, State.turn, hr, hd]

theorem step_of_incomplete {s : State} (hr : s.rst = false) (hd : decode s.cmdbuf = .incomplete) :
    step s = .next s.takeWord := by
  simp [step, State.turn, hr, hd]

theorem State.takeWord_cons {s : State} {w : Word} {q : List Word} (h : s.cmdq = w :: q) :
    s.takeWord = (s.setBuf (s.cmdbuf ++ [w])).setCmdq q := by
  simp [State.takeWord, h]

theorem State.takeWord_nil {s : State} (h : s.cmdq = []) : s.takeWord = s := by
  simp [State.takeWord, h]

theorem step_of_encode {s : State} {i : Instr} (hr : s.rst = false) (hi : WellFormed i = true)
    (hb : s.cmdbuf = encode i) : step s = exec i (s.setBuf []) :=
  step_of_command hr (by rw [hb]; simpa using decode_encode_append hi [])

/-- The words that the decoder leaves are what follows the command's own words (R73). -/
theorem decode_rest {ws rest : List Word}
    (h : (∃ i, decode ws = .command i rest) ∨ ∃ w0, decode ws = .illegal w0 rest) :
    ∃ n, commandLength? ws = some n ∧ n ≤ ws.length ∧ rest = ws.drop n := by
  obtain ⟨he, -⟩ | ⟨n, hl, hn, -, he⟩ | ⟨n, op, hl, hn, -, he⟩ := decode_cases ws
  case inl => simp [he] at h
  all_goals exact ⟨n, hl, hn, by simpa [he, eq_comm] using h⟩

theorem exec_emits {i : Instr} {s t : State} (h : exec i s = .next t) : ∃ rsp, Emits s t rsp := by
  obtain ⟨_, rfl⟩ | ⟨_, _, -, -, rfl⟩ | ⟨-, rfl⟩ | ⟨-, _, -, rfl⟩ := exec_cases h <;> exact ⟨_, rfl⟩

/-! ## Runs of the block over a stream of commands -/

/-- While the words received, with those about to be taken, spell one command, each step takes one
word (R41). -/
theorem runSteps_takes (n : Nat) (ws later : List Word) (s : State) (hr : s.rst = false)
    (hl : commandLength? (s.cmdbuf ++ ws) = some (s.cmdbuf ++ ws).length) (hq : s.cmdq = ws ++ later) :
    runSteps (ws.length + n) s = runSteps n ((s.setBuf (s.cmdbuf ++ ws)).setCmdq later) := by
  induction ws generalizing s with
  | nil =>
    have hs : (s.setBuf (s.cmdbuf ++ [])).setCmdq later = s := by
      rw [List.append_nil, State.setBuf_self, ← List.nil_append later, ← hq, State.setCmdq_self]
    rw [hs, List.length_nil, Nat.zero_add]
  | cons w ws ih =>
    have hinc : decode s.cmdbuf = .incomplete := decode_incomplete_of_lt hl (by simp)
    have hbuf : s.cmdbuf ++ w :: ws = s.cmdbuf ++ [w] ++ ws := by simp
    rw [hbuf] at hl ⊢
    rw [List.length_cons, Nat.succ_add, runSteps_succ, step_of_incomplete hr hinc, andThen_next,
      State.takeWord_cons (q := ws ++ later) hq]
    exact ih ((s.setBuf (s.cmdbuf ++ [w])).setCmdq (ws ++ later)) hr hl rfl

/-- From an idle block with the words of a well-formed command at the front of the channel, one step
a word and one step more perform that command. -/
theorem runSteps_encode (n : Nat) {i : Instr} (hi : WellFormed i = true) (later : List Word) {s : State}
    (hr : s.rst = false) (hb : s.cmdbuf = []) (hq : s.cmdq = encode i ++ later) :
    runSteps ((encode i).length + 1 + n) s = andThen (exec i (s.setCmdq later)) (runSteps n) := by
  have hl : commandLength? (s.cmdbuf ++ encode i) = some (s.cmdbuf ++ encode i).length := by
    simpa [hb] using commandLength?_encode hi
  have hidle : (((s.setBuf (s.cmdbuf ++ encode i)).setCmdq later).setBuf []) = s.setCmdq later := by
    rw [← hb]; rfl
  have hstep : step ((s.setBuf (s.cmdbuf ++ encode i)).setCmdq later) = exec i (s.setCmdq later) :=
    hidle ▸ step_of_encode hr hi (by simp [hb])
  rw [Nat.add_assoc, runSteps_takes (1 + n) _ _ _ hr hl hq, Nat.add_comm 1 n, runSteps_succ, hstep]

/-! ## The obligations -/

/-- Settles O34: no command touches the interface, only NEW writes the dimensions, and a command that
writes the store is NEW, CLEAR, or one that sets bits. -/
theorem onlyTheNamedWritersWrite : Obligations.OnlyTheNamedWritersWrite := by
  intro i s t h
  refine ⟨exec_sameInterface h, fun hi => exec_sameDims hi h, fun hop => ?_⟩
  obtain ⟨_, rfl⟩ | ⟨_, _, rfl, -, -⟩ | ⟨rfl, -⟩ | ⟨hsets, -⟩ := exec_cases h
  · exact ⟨⟨rfl, rfl⟩, rfl⟩
  · simp [Instr.opcode] at hop
  · simp [Instr.opcode] at hop
  · cases i with
    | insert | union => simp [Instr.opcode] at hop
    | _ => cases hsets

/-- Settles O36: both runs are the run of the command from the same filter with no response waiting,
seen at two interfaces. -/
theorem responseDependsOnCommandAndFilterOnly : Obligations.ResponseDependsOnCommandAndFilterOnly := by
  intro i s s' t hf hc h
  have hs : s.onto s.noResponses = s := State.onto_noResponses_of_sameFilter ⟨⟨rfl, rfl⟩, rfl⟩ rfl
  have hs' : s'.onto s.noResponses = s' := State.onto_noResponses_of_sameFilter hf hc
  have he := exec_onto s i s.noResponses
  have he' := exec_onto s' i s.noResponses
  rw [hs, h] at he
  rw [hs'] at he'
  cases ho : exec i s.noResponses with
  | next t₀ =>
    rw [ho] at he he'
    cases he
    exact ⟨s'.onto t₀, t₀.rspq, he', ⟨⟨rfl, rfl⟩, rfl⟩, rfl, rfl⟩
  | fault r => rw [ho] at he; cases he
  | refused r => rw [ho] at he; cases he

/-- Settles O41: a command performed or an illegal header leaves the front of the words received, and
a word taken moves across the seam between `cmdbuf` and the command channel. -/
theorem channelsLoseAndReorderNothing : Obligations.ChannelsLoseAndReorderNothing := by
  refine ⟨fun s t hr h => ?step, fun s t w h => State.hostSend_eq_some h, fun s t w h => ?take⟩
  case take =>
    obtain ⟨rest, hq, rfl⟩ := State.hostTake_eq_some h
    exact ⟨hq, rfl⟩
  case step =>
    obtain ⟨hrst, -⟩ | ⟨-, i, rest, hd, he⟩ | ⟨-, w0, rest, hd, rfl⟩ | ⟨-, -, rfl⟩ := step_cases h
    · simp [hr] at hrst
    · obtain ⟨n, hl, hn, rfl⟩ := decode_rest (.inl ⟨i, hd⟩)
      obtain ⟨hbuf, hcmdq, -, -⟩ := exec_sameInterface he
      obtain ⟨rsp, hrsp⟩ := exec_emits he
      refine ⟨⟨rsp, hrsp⟩, .inr ⟨n, hl, hn, ?_⟩⟩
      rw [hbuf, hcmdq, List.drop_append_of_le_length hn]
      rfl
    · obtain ⟨n, hl, hn, rfl⟩ := decode_rest (.inr ⟨w0, hd⟩)
      refine ⟨⟨_, rfl⟩, .inr ⟨n, hl, hn, ?_⟩⟩
      rw [List.drop_append_of_le_length hn]
      rfl
    · obtain ⟨-, ht⟩ | ⟨w, q, hq, ht⟩ := s.takeWord_cases <;> rw [ht]
      · exact ⟨⟨[], by simp [Emits]⟩, .inl rfl⟩
      · exact ⟨⟨[], by simp [Emits]⟩, .inl (by simp [hq])⟩

/-- Settles O48, by induction on the commands: the words of the first are taken and it is performed,
which leaves the block idle, and a command does not see the words still on the channel. -/
theorem sentCommandsArePerformedInOrder : Obligations.SentCommandsArePerformedInOrder := by
  intro cs later
  induction cs with
  | nil =>
    intro s _ _ _ hq
    exact congrArg Host.Outcome.next (congrArg s.setCmdq hq)
  | cons i cs ih =>
    intro s hwf hr hb hq
    obtain ⟨hi, hcs⟩ := List.forall_mem_cons.1 hwf
    have hq' : s.cmdq = encode i ++ (cs.flatMap encode ++ later) := by
      rw [hq, List.flatMap_cons, List.append_assoc]
    change runSteps _ s = performAll (i :: cs) (s.setCmdq later)
    rw [List.map_cons, List.sum_cons, runSteps_encode _ hi _ hr hb hq', performAll_cons,
      exec_setCmdq, exec_setCmdq, andThen_assoc, andThen_assoc]
    refine andThen_congr fun t ht => ?_
    obtain ⟨hbuf, -, hrst, -⟩ := exec_sameInterface ht
    exact ih (t.setCmdq (cs.flatMap encode ++ later)) hcs (hrst.trans hr) (hbuf.trans hb) rfl

/-- Settles O39, from `step_of_command` and the decoder's reading of what the encoder wrote. -/
theorem stepPerformsTheDecodedCommand : Obligations.StepPerformsTheDecodedCommand :=
  ⟨fun _ _ _ hr hd => step_of_command hr hd, fun _ _ hr hi hb => step_of_encode hr hi hb⟩

/-- Settles O40: the step takes a word, and what taking a word does depends on whether one waits. -/
theorem incompleteCommandTakesOneWord : Obligations.IncompleteCommandTakesOneWord := by
  intro s hr hd
  rw [step_of_incomplete hr hd]
  exact ⟨fun w q hq => congrArg Host.Outcome.next (State.takeWord_cons hq),
    fun hq => congrArg Host.Outcome.next (State.takeWord_nil hq)⟩

end Sys2Proof.Machine

/-! PROOF. The encoding (R60 to R78): legal headers, the length of a command, the bytes of a data string,
and the words of a decoded command written again. -/

namespace Sys2Proof

/-! ## Legal headers (R61 to R64) -/

/-- R61: the OPC field of an opcode's header word is its OPC value. -/
theorem headerOpc_header (op : Opcode) : headerOpc op.header = op.code := by
  cases op <;> rfl

/-- R61: with RSVD zero, a header is its OPC field. -/
theorem headerOpc_setWidth_eq_iff (w : Word) : (headerOpc w).setWidth 64 = w ↔ w.extractLsb' 8 56 = 0 := by
  have hzero : (0 : BitVec 56).toNat = 0 := rfl
  rw [← BitVec.toNat_inj, ← BitVec.toNat_inj, hzero]
  simp only [headerOpc, BitVec.toNat_setWidth, BitVec.extractLsb'_toNat, Nat.shiftRight_eq_div_pow]
  omega

/-- R64: the assigned OPC values are 1 to 10. -/
theorem exists_code_eq_iff (b : BitVec 8) : (∃ op : Opcode, op.code = b) ↔ 1 ≤ b.toNat ∧ b.toNat ≤ 10 := by
  constructor
  · rintro ⟨op, rfl⟩
    cases op <;> decide
  · rintro ⟨hlo, hhi⟩
    have hall : ∀ n, 1 ≤ n → n ≤ 10 → ∃ op : Opcode, op.code = BitVec.ofNat 8 n
      | 1, _, _ => ⟨.new, rfl⟩
      | 2, _, _ => ⟨.insert, rfl⟩
      | 3, _, _ => ⟨.contains, rfl⟩
      | 4, _, _ => ⟨.clear, rfl⟩
      | 5, _, _ => ⟨.union, rfl⟩
      | 6, _, _ => ⟨.clone, rfl⟩
      | 7, _, _ => ⟨.capacity, rfl⟩
      | 8, _, _ => ⟨.k, rfl⟩
      | 9, _, _ => ⟨.derive, rfl⟩
      | 10, _, _ => ⟨.locate, rfl⟩
    simpa using hall b.toNat hlo hhi

/-- A header is legal exactly when its OPC is assigned and its RSVD is zero (R62). -/
theorem decodeHeader_isSome_iff (w : Word) :
    (decodeHeader w).isSome = true ↔
      1 ≤ (headerOpc w).toNat ∧ (headerOpc w).toNat ≤ 10 ∧ w.extractLsb' 8 56 = 0 := by
  rw [Option.isSome_iff_exists, ← and_assoc, ← exists_code_eq_iff, ← headerOpc_setWidth_eq_iff]
  constructor
  · rintro ⟨op, h⟩
    obtain rfl := (decodeHeader_eq_some w op).1 h
    rw [headerOpc_header]
    exact ⟨⟨op, rfl⟩, rfl⟩
  · rintro ⟨⟨op, hop⟩, hw⟩
    exact ⟨op, (decodeHeader_eq_some w op).2 (by rw [← hw, ← hop]; rfl)⟩

/-! ## The command length (R73) -/

/-- R63: an illegal header is a command of one word. -/
theorem decode_of_illegal {w0 : Word} (h : decodeHeader w0 = none) (rest : List Word) :
    decode (w0 :: rest) = .illegal w0 rest := by
  simp [decode, commandLength?, h]

/-- R73: the length read from words with a legal header is their format's. -/
theorem eq_length_of_commandLength? {ws : List Word} {op : Opcode} {n : Nat}
    (h : decodeHeader (wordAt ws 0) = some op) (hl : commandLength? ws = some n) :
    n = op.format.length (wordAt ws 1) := by
  match ws, hl with
  | [w0], hl =>
    simp only [wordAt_zero] at h
    cases hf : op.format <;> simp [commandLength?, h, hf] at hl <;> exact hl.symm
  | w0 :: w1 :: rest, hl =>
    have hlen := commandLength?_of_header (List.cons_ne_nil _ _) h (.inl (by simp))
    exact Option.some.inj (hl.symm.trans hlen)

/-- With fewer words than R73's table gives, the command is not complete. -/
theorem decode_of_lt_length {ws : List Word} {op : Opcode} (h : decodeHeader (wordAt ws 0) = some op)
    (hlt : ws.length < op.format.length (wordAt ws 1)) : decode ws = .incomplete := by
  cases hl : commandLength? ws with
  | none => simp [decode, hl]
  | some n => simp [decode, hl, eq_length_of_commandLength? h hl ▸ hlt]

/-- With at least the words R73's table gives, the decoder reads that many. -/
theorem decode_of_length_le {ws : List Word} {op : Opcode} (hne : ws ≠ [])
    (h : decodeHeader (wordAt ws 0) = some op) (hle : op.format.length (wordAt ws 1) ≤ ws.length) :
    decode ws = .command (assembleOperands op ws) (ws.drop (op.format.length (wordAt ws 1))) := by
  refine decode_of_length (commandLength?_of_header hne h ?_) hle h
  cases hf : op.format with
  | N | C | L => simp
  | D | U => rw [hf, Format.length] at hle; exact .inl (by omega)

theorem assembleOperands_opcode (op : Opcode) (ws : List Word) : (assembleOperands op ws).opcode = op := by
  cases op <;> rfl

/-! ## Data strings (R67, R68) -/

/-- Only the `ceil_div(len, 8)` data words enter the string, whatever words follow. -/
theorem unpackBytes_append {len : Nat} {words : List Word} (h : len ≤ 8 * words.length) (rest : List Word) :
    unpackBytes len (words ++ rest) = unpackBytes len words := by
  rw [unpackBytes, List.flatMap_append, List.take_append_of_le_length (by rwa [flatMap_wordBytes_length]), unpackBytes]

/-- Reading a format D command whose data words are `words`. -/
theorem decode_data {op : Opcode} (hf : op.format = .D) {len : Word} {words : List Word}
    (hw : words.length = ceilDiv len.toNat 8) (rest : List Word) :
    decode (op.header :: len :: (words ++ rest)) =
      .command (assembleOperands op (op.header :: len :: (words ++ rest))) rest := by
  rw [decode_of_length_le (op := op) (by simp) (by simp)]
  · simp [hf, Format.length, ← hw, Nat.add_comm 2]
  · simp [hf, Format.length, hw]; omega

theorem dataOperand_append {len : Word} {words : List Word} (hw : words.length = ceilDiv len.toNat 8)
    (w0 : Word) (rest : List Word) :
    dataOperand (w0 :: len :: (words ++ rest)) = unpackBytes len.toNat words :=
  unpackBytes_append (hw ▸ ceilDiv_mul_ge len.toNat 8 (by decide)) rest

/-- R67: a data string read from enough words has the length `W1` says. -/
theorem dataOperand_length {ws : List Word} (h : 2 + ceilDiv (wordAt ws 1).toNat 8 ≤ ws.length) :
    (dataOperand ws).length = (wordAt ws 1).toNat := by
  have hge := ceilDiv_mul_ge (wordAt ws 1).toNat 8 (by decide)
  rw [dataOperand, unpackBytes_length, List.length_drop]
  omega

/-! ## What was decoded, written again (R64 to R71, R73) -/

/-- R69: as many image words are read as the dimensions ask for. -/
theorem imageOperand_length {ws : List Word} (h : 3 + ceilDiv (wordAt ws 1).toNat 64 ≤ ws.length) :
    (imageOperand ws).length = ceilDiv (wordAt ws 1).toNat 64 := by
  rw [imageOperand, List.length_take, List.length_drop]
  omega

/-- Enough words for the format give a command that the encoding can carry. -/
theorem wellFormed_assembleOperands {op : Opcode} {ws : List Word}
    (h : op.format.length (wordAt ws 1) ≤ ws.length) : WellFormed (assembleOperands op ws) = true := by
  have hdata : ∀ {len : Word} {data : List Byte}, data.length = len.toNat → dataFits data = true := by
    intro len data hd
    simpa [dataFits, hd] using len.isLt
  cases op with
  | insert | contains | derive => exact hdata (dataOperand_length h)
  | union => simpa [WellFormed, assembleOperands, imageFits] using imageOperand_length h
  | new | clear | clone | capacity | k | locate => rfl

/-- The encoder writes as many words as R73's table gives for the words read. -/
theorem encode_assembleOperands_length {op : Opcode} {ws : List Word}
    (h : op.format.length (wordAt ws 1) ≤ ws.length) :
    (encode (assembleOperands op ws)).length = op.format.length (wordAt ws 1) := by
  have hdata : ∀ op, 2 + ceilDiv (wordAt ws 1).toNat 8 ≤ ws.length →
      (encodeData op (dataOperand ws)).length = 2 + ceilDiv (wordAt ws 1).toNat 8 := by
    intro op h
    simp [encodeData, dataOperand_length h, Nat.add_comm 2]
  cases op with
  | insert | contains | derive => exact hdata _ h
  | union =>
    simp [encode, assembleOperands, imageOperand_length h, Opcode.format, Format.length, Nat.add_comm 3]
  | new | clear | clone | capacity | k | locate => rfl

/-- But for format D, whose padding is free, the encoder writes the very words that were read. -/
theorem encode_assembleOperands {op : Opcode} {ws : List Word} (h0 : wordAt ws 0 = op.header)
    (h : op.format.length (wordAt ws 1) ≤ ws.length) (hf : op.format ≠ .D) :
    encode (assembleOperands op ws) = ws.take (op.format.length (wordAt ws 1)) := by
  cases op with
  | insert | contains | derive => exact absurd rfl hf
  | clear | clone | capacity | k =>
    match ws, (show 1 ≤ ws.length from h) with
    | w0 :: rest, _ => cases h0; rfl
  | new =>
    match ws, (show 3 ≤ ws.length from h) with
    | w0 :: w1 :: w2 :: rest, _ => cases h0; rfl
  | union =>
    match ws, (show 3 ≤ ws.length from (Nat.le_add_right 3 _).trans h) with
    | w0 :: w1 :: w2 :: rest, _ =>
      obtain rfl : w0 = Opcode.union.header := h0
      simp [encode, assembleOperands, imageOperand, wordAt, Opcode.format, Format.length, Nat.add_comm 3]
  | locate =>
    match ws, (show 7 ≤ ws.length from h) with
    | w0 :: w1 :: w2 :: w3 :: w4 :: w5 :: w6 :: rest, _ => cases h0; rfl

/-! ## The obligations -/

/-- Settles O6: `decode_encode_append`, which puts together the length rule of each command
(`Laws.EncodedLength`) and the reading of its operands (`assembleOperands_encode`). -/
theorem decodeOfEncodeIsTheCommand : Obligations.DecodeOfEncodeIsTheCommand :=
  fun _ rest hi => decode_encode_append hi rest

/-- Settles O2: a legal header is an opcode's header word, whose OPC is that opcode's value. -/
theorem headerLegalIffAssignedAndReservedZero : Obligations.HeaderLegalIffAssignedAndReservedZero := by
  refine fun w0 => ⟨decodeHeader_isSome_iff w0, fun op h => ?_⟩
  rw [(decodeHeader_eq_some w0 op).1 h]
  exact headerOpc_header op

/-- Settles O3: R73's table is `Format.length`, on both sides of which the decoder's answer is known. -/
theorem commandLengthPerFormat : Obligations.CommandLengthPerFormat := by
  refine ⟨fun w0 rest h => decode_of_illegal h rest, fun ws op hne h => ?_⟩
  intro n
  have hn : n = op.format.length (wordAt ws 1) := by cases op <;> rfl
  rw [hn]
  exact ⟨decode_of_lt_length h, fun hle => ⟨_, assembleOperands_opcode op ws, decode_of_length_le hne h hle⟩⟩

/-- Settles O4: the string is the one unpacked from the data words alone. -/
theorem dataBytesAreLittleEndianInWords : Obligations.DataBytesAreLittleEndianInWords := by
  intro len words rest hw
  have hge : len.toNat ≤ 8 * words.length := hw ▸ ceilDiv_mul_ge len.toNat 8 (by decide)
  have hstring := fun w0 => dataOperand_append hw w0 rest
  refine ⟨unpackBytes len.toNat words, by simpa using hge,
    fun j hj => unpackBytes_getElem? _ _ j hj hge, ?insert, ?contains, ?derive⟩
  case insert => exact (decode_data (op := .insert) rfl hw rest).trans (by rw [assembleOperands, hstring])
  case contains => exact (decode_data (op := .contains) rfl hw rest).trans (by rw [assembleOperands, hstring])
  case derive => exact (decode_data (op := .derive) rfl hw rest).trans (by rw [assembleOperands, hstring])

/-- Settles O7: a command is answered only when the words its format asks for are there, and from those
words the operands and their encoding are known. -/
theorem decodedCommandIsWellFormed : Obligations.DecodedCommandIsWellFormed := by
  intro ws rest i h
  obtain ⟨he, -⟩ | ⟨_, -, -, -, he⟩ | ⟨n, op, hl, hn, hh, he⟩ := decode_cases ws <;>
    rw [he] at h <;> cases h
  obtain rfl := eq_length_of_commandLength? hh hl
  have h0 : wordAt ws 0 = op.header := (decodeHeader_eq_some _ _).1 hh
  rw [assembleOperands_opcode, encode_assembleOperands_length hn, List.length_drop]
  refine ⟨wellFormed_assembleOperands hn, h0, by omega, fun hf => ?_⟩
  rw [encode_assembleOperands h0 hn hf, List.take_append_drop]

/-- Settles O1: the five commands are well-formed and encode to their words, so the words decode to them
by the round trip. -/
theorem exampleCommandsDecodeAndEncode : Obligations.ExampleCommandsDecodeAndEncode := by
  intro p hp
  have hexamples : WellFormed p.1 = true ∧ encode p.1 = p.2 := by
    revert p
    decide
  obtain ⟨hwf, henc⟩ := hexamples
  exact ⟨by simpa [henc] using decode_encode_append hwf [], henc⟩

end Sys2Proof

/-! PROOF. The answer to a command and to an illegal header (R80 to R83, R204), and the filters that LOAD,
DEFAULT and a padded UNION image leave (R70, R77). -/

namespace Sys2Proof.Machine

/-! ## The status word as a number (R80) -/

/-- `RSP0 = DETAIL * 2^16 + OPC * 2^8 + code`: the three fields do not overlap (R80). -/
theorem statusWord_toNat (st : Status) (opc d : BitVec 8) :
    (statusWord st opc d).toNat = 65536 * d.toNat + 256 * opc.toNat + st.code.toNat := by
  have hlow := Nat.two_pow_add_eq_or_of_lt st.code.isLt opc.toNat
  have hhigh := Nat.two_pow_add_eq_or_of_lt (i := 16) (b := 2 ^ 8 * opc.toNat + st.code.toNat)
    (by omega) d.toNat
  have hd : (d.setWidth 64 <<< 16).toNat = 2 ^ 16 * d.toNat := by
    rw [BitVec.toNat_shiftLeft, BitVec.toNat_setWidth, Nat.shiftLeft_eq]
    omega
  have ho : (opc.setWidth 64 <<< 8).toNat = 2 ^ 8 * opc.toNat := by
    rw [BitVec.toNat_shiftLeft, BitVec.toNat_setWidth, Nat.shiftLeft_eq]
    omega
  have hc : (st.code.setWidth 64).toNat = st.code.toNat := by
    rw [BitVec.toNat_setWidth]
    omega
  rw [statusWord, BitVec.toNat_or, BitVec.toNat_or, hd, ho, hc, Nat.or_assoc, ← hlow, ← hhigh]
  omega

theorem headerOpc_toNat (w0 : Word) : (headerOpc w0).toNat = w0.toNat % 256 := by
  simp [headerOpc]

/-- R204: the one word that answers an illegal header. -/
theorem statusWord_illegalCommand (w0 : Word) :
    statusWord .illegalCommand (headerOpc w0) 0 = BitVec.ofNat 64 (256 * (w0.toNat % 256) + 2) := by
  apply BitVec.eq_of_toNat_eq
  rw [statusWord_toNat, headerOpc_toNat, BitVec.toNat_ofNat]
  simp [Status.code]
  omega

/-! ## The response to a command (R80 to R83) -/

/-- The rows of R82: how many payload words follow a status word of outcome `st` and DETAIL `d` to
opcode `op`. The length of a CLONE's payload depends on its first word. -/
def payloadLength (op : Opcode) (d : BitVec 8) (rsp1 : Word) : Status → Nat
  | .ok => okPayloadLength rsp1 op
  | .dimensionMismatch => 2
  | .illegalCommand => 0
  | .capacityExceeded => 2
  | .invalidOperand => if d = 0 then 1 else 0

/-- R83: the host reads the row of R82 from the status word. -/
theorem responseLength?_statusWord (st : Status) (op : Opcode) (d : BitVec 8) (rsp1 : Word) :
    responseLength? (statusWord st op.code d) rsp1 = some (1 + payloadLength op d rsp1 st) := by
  unfold responseLength?
  rw [rspStatus_statusWord, rspOpc_statusWord, rspDetail_statusWord]
  cases st with
  | ok => rw [if_pos rfl, ← Opcode.header, decodeHeader_header]; rfl
  | invalidOperand => by_cases hd : d = 0#8 <;> simp [Status.code, payloadLength, hd]
  | dimensionMismatch | illegalCommand | capacityExceeded => simp [Status.code, payloadLength]

/-- `t` is `s` after a command of opcode `op` that answered with one response of R82. -/
def AnswersFrom (op : Opcode) (s t : State) : Prop :=
  ∃ (st : Status) (d : BitVec 8) (payload : List Word), st ≠ .illegalCommand ∧
    payload.length = payloadLength op d (payload.getD 0 0) st ∧
    Emits s t (statusWord st op.code d :: payload)

/-- A command that responds OK from a state with the same responses waiting. -/
theorem AnswersFrom.respond {op : Opcode} {s u : State} {payload : List Word} (hq : u.rspq = s.rspq)
    (hlen : payload.length = okPayloadLength (payload.getD 0 0) op) :
    AnswersFrom op s (u.respond op payload) :=
  ⟨.ok, 0, payload, by decide, hlen, by rw [Emits, State.respond_eq, State.send_rspq, hq]⟩

/-- A command that raises an error other than ILLEGAL_COMMAND. -/
theorem AnswersFrom.raise {op : Opcode} {s : State} {st : Status} {d : BitVec 8} {info : List Word}
    (hst : st ≠ .illegalCommand) (hlen : info.length = payloadLength op d (info.getD 0 0) st) :
    AnswersFrom op s (s.raise op.code st d info) :=
  ⟨st, d, info, hst, hlen, rfl⟩

theorem AnswersFrom.raiseTooLong {op : Opcode} {s : State} {data : List Byte} :
    AnswersFrom op s (s.raiseTooLong op data) :=
  AnswersFrom.raise (by decide) rfl

/-- INSERT's loop emits nothing. -/
theorem State.setProbes_rspq {s t : State} {h : HashWords} {n : Nat} (ht : s.setProbes h n = some t) :
    t.rspq = s.rspq := by
  induction n generalizing t with
  | zero => cases ht; rfl
  | succ n ih =>
    obtain ⟨u, hu, hw⟩ := Option.bind_eq_some_iff.1 ht
    obtain ⟨-, rfl⟩ := State.memWrite_cases hw
    exact ih (t := u) hu

/-- UNION's loop emits nothing. -/
theorem State.orImage_rspq {s t : State} {img : List Word} {n : Nat} (hn : n ≤ s.M.toNat)
    (ht : s.orImage img n = some t) : t.rspq = s.rspq := by
  obtain ⟨mem, he, -⟩ := s.orImage_spec img n hn
  cases he.symm.trans ht
  rfl

/-- R82: a command answers with one response, of its opcode's row. -/
theorem exec_answersFrom {i : Instr} {s t : State} (h : exec i s = .next t) :
    AnswersFrom i.opcode s t := by
  cases i with
  | new m k =>
    simp only [exec, execNew] at h
    split at h <;> cases h
    · exact AnswersFrom.raise (op := .new) (by decide) rfl
    · exact AnswersFrom.respond rfl rfl
  | insert data =>
    simp only [exec, execInsert] at h
    split at h
    · cases h; exact AnswersFrom.raiseTooLong
    · obtain ⟨u, hu, rfl⟩ := finish_eq_next h
      exact AnswersFrom.respond (State.setProbes_rspq hu) rfl
  | contains data =>
    simp only [exec, execContains] at h
    split at h
    · cases h; exact AnswersFrom.raiseTooLong
    · obtain ⟨found, -, rfl⟩ := finish_eq_next h
      exact AnswersFrom.respond rfl rfl
  | clear => cases h; exact AnswersFrom.respond rfl rfl
  | union mO kO img =>
    simp only [exec, execUnion] at h
    split at h
    · cases h; exact AnswersFrom.raise (op := .union) (by decide) rfl
    · split at h
      · cases h; exact AnswersFrom.raise (op := .union) (by decide) rfl
      · obtain ⟨u, hu, rfl⟩ := finish_eq_next h
        exact AnswersFrom.respond (State.orImage_rspq (le_refl _) hu) rfl
  | clone =>
    cases h
    exact AnswersFrom.respond rfl (by simp [Instr.opcode, okPayloadLength, Nat.add_comm 2])
  | capacity => cases h; exact AnswersFrom.respond rfl rfl
  | k => cases h; exact AnswersFrom.respond rfl rfl
  | derive data =>
    simp only [exec, execDerive] at h
    split at h <;> cases h
    · exact AnswersFrom.raiseTooLong
    · exact AnswersFrom.respond rfl rfl
  | locate h0 h1 h2 h3 j m =>
    simp only [exec, execLocate] at h
    split at h <;> cases h
    · exact AnswersFrom.raise (op := .locate) (by decide) rfl
    · exact AnswersFrom.respond rfl rfl

/-! ## UNION (R170 to R172) -/

/-- UNION's loop reads of the image only the bits below its bound. -/
theorem State.orImage_congr {img img' : List Word} {n : Nat} (s : State)
    (h : ∀ j < n, imageBit img j = imageBit img' j) : s.orImage img n = s.orImage img' n := by
  induction n with
  | zero => rfl
  | succ n ih => rw [State.orImage, State.orImage, ih fun j hj => h j (by omega), h n (Nat.lt_succ_self n)]

/-- R70: UNION ignores the image's bits from `m_o` on. -/
theorem exec_union_congr {mO : Word} {img img' : List Word} (kO : Word)
    (h : ∀ j < mO.toNat, imageBit img j = imageBit img' j) (s : State) :
    exec (.union mO kO img) s = exec (.union mO kO img') s := by
  by_cases hm : s.M = mO
  · rw [exec, exec, execUnion, execUnion, State.orImage_congr s (hm ▸ h)]
  · simp [exec, execUnion, hm]

/-- UNION of an image of the filter's own dimensions ORs the image into the store (R172). -/
theorem exec_union_of_sameDims (s : State) (img : List Word) :
    ∃ mem, exec (.union s.M s.K img) s = .next ((s.setBits mem).respond .union []) ∧
      ∀ j < s.M.toNat, mem.read j = (s.BITS.read j || imageBit img j) := by
  obtain ⟨mem, he, hr, -⟩ := s.orImage_spec img s.M.toNat (le_refl _)
  refine ⟨mem, by simp [exec, execUnion, he], fun j hj => by simp [hr, hj]⟩

/-! ## NEW (R150) -/

theorem clampToOne_of_pos {v : Word} (h : 1 ≤ v.toNat) : clampToOne v = v :=
  if_neg fun h0 => by simp [h0] at h

/-- NEW with operands that need no clamp and fit the block. -/
theorem exec_new_of_pos {m k : Word} {s : State} (hm : 1 ≤ m.toNat) (hle : m.toNat ≤ s.cfg.mMax.toNat)
    (hk : 1 ≤ k.toNat) : exec (.new m k) s = .next (((s.setDims m k).zeroStore).respond .new []) := by
  rw [exec_new_of_le (by rwa [clampToOne_of_pos hm]), clampToOne_of_pos hm, clampToOne_of_pos hk]

/-! ## The step on an illegal header (R63, R204) -/

theorem step_of_illegal {s : State} {w0 : Word} {rest : List Word} (hr : s.rst = false)
    (hd : decode s.cmdbuf = .illegal w0 rest) : step s = .next (illegalCommand w0 (s.setBuf rest)) := by
  simp [step, State.turn, hr, hd]

/-! ## The obligations -/

/-- Settles O5: `exec_union_congr` for the two commands that the words spell. -/
theorem unionIgnoresImagePadding : Obligations.UnionIgnoresImagePadding := by
  intro mO kO ws ws' rest hlen hlen' hbits
  have hdecode : ∀ img : List Word, img.length = ceilDiv mO.toNat 64 →
      decode (0x05 :: mO :: kO :: (img ++ rest)) = .command (.union mO kO img) rest := fun img himg =>
    decode_encode_append (i := .union mO kO img) (by simpa [WellFormed, imageFits] using himg) rest
  exact ⟨_, _, hdecode ws hlen, hdecode ws' (hlen'.trans hlen), exec_union_congr kO hbits⟩

/-- Settles O24: NEW builds the empty filter with the image's dimensions, into which UNION then ORs the
image; DEFAULT is NEW with the dimensions of reset. -/
theorem loadAndDefaultBuildTheirFilters : Obligations.LoadAndDefaultBuildTheirFilters := by
  constructor
  · intro m k img s hm hle hk _
    obtain ⟨mem, hunion, hread⟩ :=
      exec_union_of_sameDims (((s.setDims m k).zeroStore).respond .new []) img
    refine ⟨_, performAll_cons_eq_next.2 ⟨_, exec_new_of_pos hm hle hk,
      performAll_cons_eq_next.2 ⟨_, hunion, rfl⟩⟩, rfl, rfl, fun j hj => ?bits, ?emits, rfl, rfl, rfl, rfl⟩
    case bits =>
      have himage : mem.read j = imageBit img j := by
        rw [hread j hj, State.respond_eq, State.send_BITS, State.zeroStore, State.setBits_BITS, Memory.read_zero,
          Bool.false_or]
      exact (State.memRead_of_lt hj).trans (congrArg some himage)
    case emits => exact List.append_assoc s.rspq _ _
  · intro s hle
    exact ⟨_, performAll_cons_eq_next.2 ⟨_, exec_new_of_pos (le_refl 1) hle (le_refl 1), rfl⟩,
      ⟨⟨rfl, rfl⟩, rfl⟩, rfl, rfl, rfl, rfl, rfl⟩

/-- Settles O31: the response is the one `exec_answersFrom` gives, and the fields of its status word are
known. -/
theorem everyResponseTellsItsLength : Obligations.EveryResponseTellsItsLength := by
  refine ⟨fun i s t h => ?command, fun w0 next => ?illegal⟩
  case command =>
    obtain ⟨st, d, payload, hst, hlen, hemits⟩ := exec_answersFrom h
    have hcode : (rspStatus (statusWord st i.opcode.code d)).toNat ∈ [0, 1, 3, 4] := by
      rw [rspStatus_statusWord]
      cases st with
      | illegalCommand => exact absurd rfl hst
      | ok | dimensionMismatch | capacityExceeded | invalidOperand => decide
    exact ⟨_, payload, hemits, rspOpc_statusWord .., statusWord_high .., hcode,
      hlen ▸ responseLength?_statusWord ..⟩
  case illegal =>
    rw [← statusWord_illegalCommand, responseLength?, rspStatus_statusWord]
    rfl

/-- Settles O33: `decode_of_illegal` for a header that `decodeHeader_isSome_iff` says is not legal. -/
theorem illegalHeaderIsAnsweredAlone : Obligations.IllegalHeaderIsAnsweredAlone := by
  intro s w0 rest hr hb hw
  have hnone : decodeHeader w0 = none :=
    Option.not_isSome_iff_eq_none.1 (mt (decodeHeader_isSome_iff w0).1 hw)
  rw [step_of_illegal hr (hb ▸ decode_of_illegal hnone rest), illegalCommand, State.raise_eq,
    statusWord_illegalCommand]
  rfl

end Sys2Proof.Machine

/-! PROOF. The assembler (R76): what it checks of a line, and what it makes of a comment. -/

namespace Sys2Proof.Machine

/-! ## What assembling checks (R76) -/

/-- Every command of a line that assembles fits its format. -/
theorem wellFormed_of_assembleLine {line : List Char} {l : AsmLine} (h : assembleLine line = some l) :
    ∀ c ∈ l.expand, WellFormed c = true := by
  obtain ⟨toks, -, h⟩ := Option.bind_eq_some_iff.1 h
  split at h
  · cases h
    simp [AsmLine.expand]
  · obtain ⟨l', -, h⟩ := Option.bind_eq_some_iff.1 h
    split at h
    · rename_i hall
      cases h
      exact List.all_eq_true.1 hall
    · cases h
  · cases h

/-! ## Comments (R76) -/

theorem lexFrom_append (st : LexState) (cs ds : List Char) :
    lexFrom st (cs ++ ds) = (lexFrom st cs).bind fun st' => lexFrom st' ds := by
  induction cs generalizing st with
  | nil => rfl
  | cons c cs ih =>
    rw [List.cons_append, lexFrom, lexFrom, Option.bind_assoc]
    exact congrArg (lexChar st c).bind (funext fun st' => ih st')

/-- A comment runs to the end of the line. -/
theorem lexFrom_comment (done : List Token) (cs : List Char) :
    lexFrom ⟨done, .comment⟩ cs = some ⟨done, .comment⟩ := by
  induction cs with
  | nil => rfl
  | cons c cs ih => exact ih

/-- The reader is neither in a string nor in a comment. -/
def LexMode.isOutside : LexMode → Bool
  | .between => true
  | .inAtom _ => true
  | .inText _ => false
  | .escape _ => false
  | .escapeX _ => false
  | .escapeDigit _ _ => false
  | .comment => false

/-- The character opens neither a string (code 34) nor a comment (code 59). -/
def IsPlain (c : Char) : Prop := c.toNat ≠ 34 ∧ c.toNat ≠ 59

theorem isPlain_of_mem {text : List Char} {c : Char} (hquote : Char.ofNat 34 ∉ text)
    (hsemi : Char.ofNat 59 ∉ text) (hc : c ∈ text) : IsPlain c := by
  constructor
  · intro h
    obtain rfl : c = Char.ofNat 34 := Char.toNat_inj.1 h
    exact hquote hc
  · intro h
    obtain rfl : c = Char.ofNat 59 := Char.toNat_inj.1 h
    exact hsemi hc

theorem lexBetween_isOutside {done : List Token} {c : Char} {st : LexState} (hc : IsPlain c)
    (h : lexBetween done c = some st) : st.mode.isOutside = true := by
  obtain ⟨hquote, hsemi⟩ := hc
  unfold lexBetween at h
  simp only [hquote, hsemi, if_false] at h
  split_ifs at h <;> cases h <;> rfl

theorem lexChar_isOutside {st st' : LexState} {c : Char} (hst : st.mode.isOutside = true)
    (hc : IsPlain c) (h : lexChar st c = some st') : st'.mode.isOutside = true := by
  obtain ⟨done, mode⟩ := st
  cases mode with
  | between => exact lexBetween_isOutside hc h
  | inAtom cs =>
    simp only [lexChar] at h
    split at h
    · cases h; rfl
    · exact lexBetween_isOutside hc h
  | inText | escape | escapeX | escapeDigit | comment => cases hst

theorem lexFrom_isOutside {text : List Char} (hplain : ∀ c ∈ text, IsPlain c) {st st' : LexState}
    (hst : st.mode.isOutside = true) (h : lexFrom st text = some st') : st'.mode.isOutside = true := by
  induction text generalizing st with
  | nil => cases h; exact hst
  | cons c cs ih =>
    obtain ⟨hc, hcs⟩ := List.forall_mem_cons.1 hplain
    obtain ⟨u, hu, h⟩ := Option.bind_eq_some_iff.1 h
    exact ih hcs (lexChar_isOutside hst hc hu) h

/-- Outside a string, a semicolon ends the line as the line's end does. -/
theorem lexFrom_semicolon {st : LexState} (hst : st.mode.isOutside = true) (comment : List Char) :
    (lexFrom st (';' :: comment)).bind lexEnd = lexEnd st := by
  obtain ⟨done, mode⟩ := st
  cases mode with
  | between => exact congrArg (·.bind lexEnd) (lexFrom_comment done comment)
  | inAtom cs => exact congrArg (·.bind lexEnd) (lexFrom_comment (done ++ [.atom cs]) comment)
  | inText | escape | escapeX | escapeDigit | comment => cases hst

theorem lexLine_comment {text : List Char} (hplain : ∀ c ∈ text, IsPlain c) (comment : List Char) :
    lexLine (text ++ ';' :: comment) = lexLine text := by
  rw [lexLine, lexLine, lexFrom_append, Option.bind_assoc]
  cases h : lexFrom ⟨[], .between⟩ text with
  | none => rfl
  | some st => exact lexFrom_semicolon (lexFrom_isOutside hplain rfl h) comment

/-! ## The obligations -/

/-- Settles O49: the check of `assembleLine` makes the command well-formed, so its words decode to it. -/
theorem assembledLineDecodesToItsCommand : Obligations.AssembledLineDecodesToItsCommand := by
  intro line l h
  have hwf := wellFormed_of_assembleLine h
  refine ⟨hwf, fun i more hl => ?_⟩
  subst hl
  exact decode_encode_append (hwf i (by simp [AsmLine.expand])) more

/-- Settles O50: the two lines have the same tokens. -/
theorem assemblerIgnoresComments : Obligations.AssemblerIgnoresComments := by
  intro text comment hquote hsemi
  rw [assembleLine, assembleLine, lexLine_comment fun c hc => isPlain_of_mem hquote hsemi hc]

end Sys2Proof.Machine

/-! PROOF. The hash deriver (R100 to R108): the bytes of a 64-bit word as a number, the default hash of a
string cut into whole blocks and a tail, and the command DERIVE. -/

namespace Sys2Proof

/-! ## Data strings (R67, R68) -/

/-- Words that carry the bytes of a string unpack to that string, whatever their padding bytes are (R68). -/
theorem unpackBytes_of_carryBytes {words : List Word} {data : List Byte} (h : CarryBytes words data) :
    unpackBytes data.length words = data := by
  obtain ⟨hlen, hbytes⟩ := h
  have hge : data.length ≤ 8 * words.length := hlen ▸ ceilDiv_mul_ge data.length 8 (by decide)
  apply List.ext_getElem?
  intro j
  by_cases hj : j < data.length
  · rw [unpackBytes_getElem? _ _ j hj hge, List.getElem?_eq_getElem hj, wordByte, hbytes j hj]
  · rw [List.getElem?_eq_none (by simp; omega), List.getElem?_eq_none (by omega)]

/-- The words of a format D command that carry a string decode to the command with that string (R67). -/
theorem decode_of_carryBytes {op : Opcode} (hf : op.format = .D) {words : List Word} {data : List Byte}
    (hlen : data.length < 2 ^ 64) (h : CarryBytes words data) (rest : List Word) :
    ∃ ws, dataOperand ws = data ∧
      decode (op.header :: BitVec.ofNat 64 data.length :: (words ++ rest)) =
        .command (assembleOperands op ws) rest := by
  have hnat : (BitVec.ofNat 64 data.length).toNat = data.length := by
    rw [BitVec.toNat_ofNat, Nat.mod_eq_of_lt hlen]
  have hwords : words.length = ceilDiv (BitVec.ofNat 64 data.length).toNat 8 := by rw [hnat, h.1]
  exact ⟨_, by rw [dataOperand_append hwords, hnat, unpackBytes_of_carryBytes h],
    decode_data hf hwords rest⟩

/-! ## `LE64` as a number (R104) -/

/-- One more byte in front shifts the word up by one byte, as long as no byte is shifted out. -/
theorem le64_cons_toNat (b : Byte) {bs : List Byte} (h : (le64 bs).toNat < 256 ^ 7) :
    (le64 (b :: bs)).toNat = b.toNat + 256 * (le64 bs).toNat := by
  have hfit : (le64 bs).toNat <<< 8 % 2 ^ 64 = 2 ^ 8 * (le64 bs).toNat := by
    rw [Nat.shiftLeft_eq]; omega
  rw [le64, BitVec.toNat_or, BitVec.toNat_shiftLeft, hfit, BitVec.toNat_setWidth_of_le (by decide),
    Nat.or_comm, ← Nat.two_pow_add_eq_or_of_lt b.isLt, Nat.add_comm]

/-- `LE64` of at most eight bytes reads them as the digits of a number to the base 256. -/
theorem le64_toNat_eq_ofDigits {bs : List Byte} (h : bs.length ≤ 8) :
    (le64 bs).toNat = Nat.ofDigits 256 (bs.map BitVec.toNat) := by
  induction bs with
  | nil => rfl
  | cons b bs ih =>
    have hlen : bs.length ≤ 7 := Nat.le_of_succ_le_succ h
    have hdigits : ∀ d ∈ bs.map BitVec.toNat, d < 256 := by
      intro d hd
      obtain ⟨c, -, rfl⟩ := List.mem_map.1 hd
      exact c.isLt
    have hlt : (le64 bs).toNat < 256 ^ 7 := by
      rw [ih (by omega)]
      exact (Nat.ofDigits_lt_base_pow_length (by decide) hdigits).trans_le
        (Nat.pow_le_pow_right (by decide) (by simpa using hlen))
    rw [le64_cons_toNat b hlt, ih (by omega), List.map_cons, Nat.ofDigits_cons]

end Sys2Proof

namespace Sys2Proof.Machine

/-! ## The default hash of whole blocks and a tail (R104 to R106) -/

/-- The first `n` blocks of a string that begins with `n` whole blocks are those blocks. -/
theorem murmurBody_append {p : List Byte} {n : Nat} (hp : p.length = 16 * n) (q : List Byte) (st : HashState) :
    murmurBody (p ++ q) st n = murmurBody p st n :=
  murmurBody_congr _ _ st n (by rw [List.take_append_of_le_length hp.ge])

/-- One more block after `n` whole ones is absorbed last, its two halves as `k1` and `k2` (R104). -/
theorem murmurBody_append_block {p lo hi : List Byte} {n : Nat} (hp : p.length = 16 * n)
    (hlo : lo.length = 8) (hhi : hi.length = 8) (st : HashState) :
    murmurBody (p ++ lo ++ hi) st (n + 1) = murmurBlock (murmurBody p st n) (le64 lo) (le64 hi) := by
  have hk1 : ((p ++ lo ++ hi).drop (16 * n)).take 8 = lo := by
    rw [List.append_assoc, List.drop_left' hp, List.take_left' hlo]
  have hk2 : ((p ++ lo ++ hi).drop (16 * n + 8)).take 8 = hi := by
    rw [List.drop_left' (by simp [hp, hlo]), List.take_of_length_le hhi.le]
  rw [murmurBody, hk1, hk2, List.append_assoc, murmurBody_append hp]

/-- A string of `n` whole blocks and a tail: the blocks, then the tail, then the finalization over the
whole length. -/
theorem murmur3_append {p t : List Byte} {n : Nat} (hp : p.length = 16 * n) (ht : t.length < 16) (seed : Word) :
    murmur3 (p ++ t) seed =
      murmurFinal (16 * n + t.length) (murmurTail t (murmurBody p ⟨seed, seed⟩ n)) := by
  have hlen : (p ++ t).length = 16 * n + t.length := by rw [List.length_append, hp]
  have hblocks : (16 * n + t.length) / 16 = n := by omega
  rw [murmur3, hlen, hblocks, List.drop_left' hp, murmurBody_append hp]

/-- A string shorter than one block is a tail alone. -/
theorem murmur3_of_length_lt {t : List Byte} (ht : t.length < 16) (seed : Word) :
    murmur3 t seed = murmurFinal t.length (murmurTail t ⟨seed, seed⟩) := by
  simpa [murmurBody] using murmur3_append (p := []) (n := 0) rfl ht seed

/-! ## DERIVE (R100 to R108) -/

theorem lowHalf_eq (v : BitVec 128) : lowHalf v = v.extractLsb' 0 64 := by
  apply BitVec.eq_of_toNat_eq
  have hmask : v.toNat &&& 0xFFFFFFFFFFFFFFFF = v.toNat % 2 ^ 64 := Nat.and_two_pow_sub_one_eq_mod v.toNat 64
  calc (lowHalf v).toNat
    _ = (v.toNat &&& 0xFFFFFFFFFFFFFFFF) % 2 ^ 64 := rfl
    _ = v.toNat % 2 ^ 64 := by rw [hmask, Nat.mod_mod]
    _ = (v.extractLsb' 0 64).toNat := rfl

theorem highHalf_eq (v : BitVec 128) : highHalf v = v.extractLsb' 64 64 := rfl

/-- The four hash words as bit ranges of the two digests (R100, R101). -/
theorem deriveWords_eq (c : HashChoice) (data : List Byte) :
    deriveWords c data =
      ⟨(hash128 c data).extractLsb' 0 64, (hash128 c data).extractLsb' 64 64,
        (hash128 c (data ++ [0x01])).extractLsb' 0 64, (hash128 c (data ++ [0x01])).extractLsb' 64 64⟩ := by
  simp only [deriveWords, lowHalf_eq, highHalf_eq]

/-- A string within `L_MAX` is answered with its four hash words (R108). -/
theorem exec_derive_of_le {data : List Byte} {s : State} (h : data.length ≤ s.cfg.lMax.toNat) :
    exec (.derive data) s = .next (s.respond .derive
      [(deriveWords s.cfg.hash data).h0, (deriveWords s.cfg.hash data).h1,
        (deriveWords s.cfg.hash data).h2, (deriveWords s.cfg.hash data).h3]) := by
  simp [exec, execDerive, Nat.not_lt.2 h]

/-- A longer string is refused (R108, R203). -/
theorem exec_derive_of_lt {data : List Byte} {s : State} (h : s.cfg.lMax.toNat < data.length) :
    exec (.derive data) s = .next (s.raiseTooLong .derive data) := by
  simp [exec, execDerive, h]

/-! ## The obligations -/

/-- Settles O25: the words decode because they carry the string; the answer is the four hash words, each of
which is a half of a digest. -/
theorem deriveAnswersTheFourHalves : Obligations.DeriveAnswersTheFourHalves := by
  intro data s
  refine ⟨fun ws rest hlen hws => ?decodes, fun hle => ?answers, fun hlt => exec_derive_of_lt hlt⟩
  case decodes =>
    obtain ⟨words, hdata, hdecode⟩ := decode_of_carryBytes (op := .derive) rfl hlen hws rest
    exact hdecode.trans (by rw [assembleOperands, hdata])
  case answers =>
    rw [AnswersOnly, exec_derive_of_le hle, deriveWords_eq]
    rfl

/-- Settles O26: the digits of the number, each with its weight. -/
theorem littleEndianWordIsWeightedSum : Obligations.LittleEndianWordIsWeightedSum := by
  intro bs h
  rw [le64_toNat_eq_ofDigits h, Nat.ofDigits_eq_sum_mapIdx, List.mapIdx_eq_zipIdx_map, List.zipIdx_map,
    List.map_map]
  simp [Function.comp_def, pow_mul]

/-- Settles O27: `n + 1` whole blocks and a tail, with the last of the blocks split off. -/
theorem hashAbsorbsWholeBlocksInOrder : Obligations.HashAbsorbsWholeBlocksInOrder := by
  intro n p lo hi tail hp hlo hhi htail
  have hblocks : (p ++ lo ++ hi).length = 16 * (n + 1) := by
    simp only [List.length_append, hp, hlo, hhi]; omega
  rw [hash128, murmur3_append hblocks htail, murmurBody_append_block hp hlo hhi, Nat.mul_succ]

/-- Settles O28: the string is a tail alone, and its length says which parts of the tail run on the zero
state. -/
theorem hashOfShortStringUsesTailOnly : Obligations.HashOfShortStringUsesTailOnly := by
  refine ⟨?empty, fun s h1 h8 => ?short, fun lo hi hlo h1 h7 => ?long⟩
  case empty =>
    rw [hash128, murmur3_of_length_lt (by decide), murmurTail_nil]
    decide
  case short =>
    rw [hash128, murmur3_of_length_lt (by omega), murmurTail_short h1 h8]
    simp
  case long =>
    have hlen : (lo ++ hi).length = 8 + hi.length := by rw [List.length_append, hlo]
    rw [hash128, murmur3_of_length_lt (by omega), murmurTail_long (by omega), hlen, List.take_left' hlo,
      List.drop_left' hlo]
    simp

end Sys2Proof.Machine

/-! PROOF. The index generator (R130 to R138): the formula of R130 in exact naturals, what LOCATE answers, and
the corner cases of R138. -/

namespace Sys2Proof.Machine

/-! ## The formula in exact naturals (R130 to R133) -/

/-- The hash vector as the list of its four words, indexed from 0 (R10). -/
theorem HashWords.getD_eq_word (h : HashWords) {j : Nat} (hj : j < 4) :
    [h.h0, h.h1, h.h2, h.h3].getD j 0 = h.word j := by
  match j, hj with
  | 0, _ | 1, _ | 2, _ | 3, _ => rfl

theorem mixSelector_lt_four (i : Nat) : mixSelector i < 4 := by
  rw [mixSelector_eq]
  split <;> decide

/-- Both the product and the sum wrap (R133). -/
theorem combined_toNat (h : HashWords) (i : Word) :
    (combined h i).toNat =
      ((h.word (i.toNat % 2)).toNat + (i.toNat * (h.word (mixSelector i.toNat)).toNat) % 2 ^ 64) % 2 ^ 64 := by
  rw [combined, BitVec.toNat_add, BitVec.toNat_mul]

/-! ## Corner cases of the formula (R138) -/

/-- With one bit every probe goes to it. -/
theorem locate_one (h : HashWords) (i : Word) : locate h i 1 = 0 := BitVec.umod_one

/-- Probe 0 takes the first hash word alone: its mixer is multiplied by 0. -/
theorem combined_zero_index (h : HashWords) : combined h 0 = h.h0 := by
  have hbase : h.word ((0 : Word).toNat % 2) = h.h0 := rfl
  rw [combined, hbase, zero_mul, add_zero]

theorem HashWords.word_of_zero (j : Nat) : HashWords.word ⟨0, 0, 0, 0⟩ j = 0 := by
  unfold HashWords.word
  split <;> rfl

/-- The zero hash vector sends every probe to bit 0. -/
theorem locate_zero_hash (i m : Word) : locate ⟨0, 0, 0, 0⟩ i m = 0 := by
  have hcombined : combined ⟨0, 0, 0, 0⟩ i = 0 := by
    simp only [combined, HashWords.word_of_zero, mul_zero, add_zero]
  rw [locate, hcombined]
  exact BitVec.zero_umod

/-- Only the word `2^64 - 1` itself is not below the modulus `2^64 - 1`. -/
theorem locate_largest_modulus (h : HashWords) (i : Word) :
    locate h i 0xFFFFFFFFFFFFFFFF =
      if combined h i = 0xFFFFFFFFFFFFFFFF then 0 else combined h i := by
  rw [locate]
  split
  next heq =>
    rw [heq]
    exact BitVec.umod_self
  next hne => exact BitVec.umod_eq_of_lt (by bv_omega)

/-! ## LOCATE (R71, R136) -/

/-- Six operand words after the header are the command (R71). -/
theorem decode_locate (h0 h1 h2 h3 i m : Word) (rest : List Word) :
    decode (0x0A :: h0 :: h1 :: h2 :: h3 :: i :: m :: rest) = .command (.locate h0 h1 h2 h3 i m) rest :=
  decode_encode_append (i := .locate h0 h1 h2 h3 i m) rfl rest

/-- A modulus other than 0 is answered with the bit index. -/
theorem answersOnly_locate (h0 h1 h2 h3 i : Word) {m : Word} (hm : m ≠ 0) (s : State) :
    AnswersOnly (.locate h0 h1 h2 h3 i m) s [0x0000000000000A00, locate ⟨h0, h1, h2, h3⟩ i m] := by
  simp only [AnswersOnly, exec, execLocate, if_neg hm]
  rfl

/-- The modulus 0 is refused (R136, R203). -/
theorem answersOnly_locate_zero_modulus (h0 h1 h2 h3 i : Word) (s : State) :
    AnswersOnly (.locate h0 h1 h2 h3 i 0) s [0x0000000000010A04] := rfl

/-! ## The obligations -/

/-- Settles O29: LOCATE answers `locate`, which is `combined_toNat` modulo `m`; its two words of the hash vector
are the list's, since both indices lie below 4. -/
theorem locateFollowsTheProbeFormula : Obligations.LocateFollowsTheProbeFormula := by
  intro h0 h1 h2 h3 i m s
  refine ⟨decode_locate h0 h1 h2 h3 i m, fun hm => ?answers, ?refuses⟩
  case answers =>
    have hbase := HashWords.getD_eq_word ⟨h0, h1, h2, h3⟩ (j := i.toNat % 2) (by omega)
    have hmixer := HashWords.getD_eq_word ⟨h0, h1, h2, h3⟩ (mixSelector_lt_four i.toNat)
    refine ⟨locate ⟨h0, h1, h2, h3⟩ i m, answersOnly_locate h0 h1 h2 h3 i hm s,
      locate_lt _ i m (by bv_omega), mixSelector_eq i.toNat, ?_⟩
    change _ = (([h0, h1, h2, h3].getD (i.toNat % 2) 0).toNat +
      (i.toNat * ([h0, h1, h2, h3].getD (mixSelector i.toNat) 0).toNat) % 2 ^ 64) % 2 ^ 64 % m.toNat
    rw [hbase, hmixer, ← combined_toNat, locate, BitVec.toNat_umod]
  case refuses =>
    rintro rfl
    exact answersOnly_locate_zero_modulus h0 h1 h2 h3 i s

/-- Settles O30: in each case LOCATE answers `locate`, whose value there is the corner case of the formula. -/
theorem locateCornerCases : Obligations.LocateCornerCases := by
  intro h0 h1 h2 h3 i m s
  refine ⟨?oneBit, fun hm => ?firstProbe, fun hm => ?zeroHash, ?largestModulus⟩
  case oneBit =>
    simpa only [locate_one] using answersOnly_locate h0 h1 h2 h3 i (m := 1) (by decide) s
  case firstProbe =>
    simpa only [locate, combined_zero_index] using answersOnly_locate h0 h1 h2 h3 0 hm s
  case zeroHash =>
    simpa only [locate_zero_hash] using answersOnly_locate 0 0 0 0 i hm s
  case largestModulus =>
    simpa only [locate_largest_modulus] using
      answersOnly_locate h0 h1 h2 h3 i (m := 0xFFFFFFFFFFFFFFFF) (by decide) s

end Sys2Proof.Machine

/-! PROOF. The bitset store's commands (R150 to R181): the store as a set of addresses, the addresses that
INSERT and UNION add to it, and what each command answers. -/

namespace Sys2Proof.Machine

/-! ## The store as the set of its 1 bits (R22, R34) -/

/-- The addresses whose bit is 1. -/
def State.ones (s : State) : Set Nat := {j | s.BITS.read j = true}

theorem State.mem_ones {s : State} {j : Nat} : j ∈ s.ones ↔ s.BITS.read j = true := Iff.rfl

theorem State.memRead_eq_some_true {s : State} {j : Nat} :
    s.memRead j = some true ↔ j < s.M.toNat ∧ j ∈ s.ones := State.memRead_eq_some

theorem State.memRead_eq_some_false {s : State} {j : Nat} :
    s.memRead j = some false ↔ j < s.M.toNat ∧ j ∉ s.ones := by
  rw [State.memRead_eq_some, State.mem_ones, Bool.not_eq_true]

theorem State.memRead_congr {s t : State} {j : Nat} (hM : t.M = s.M) (h : j ∈ t.ones ↔ j ∈ s.ones) :
    t.memRead j = s.memRead j := by
  rw [State.memRead_eq, State.memRead_eq, hM, Bool.eq_iff_iff.2 h]

theorem Inv.lt_of_mem_ones {s : State} (hs : Inv s) {j : Nat} (hj : j ∈ s.ones) : j < s.M.toNat :=
  hs.bits_lt j ((Memory.read_iff _ _).1 hj)

/-- Canonical stores with the same 1 bits are the same data. -/
theorem State.bits_eq_of_ones_eq {s t : State} (hs : s.BITS.wf) (ht : t.BITS.wf) (h : t.ones = s.ones) :
    t.BITS = s.BITS :=
  Memory.ext_of_wf ht hs fun j => Bool.eq_iff_iff.2 (Set.ext_iff.1 h j)

/-! ## Adding bits (R155, R172)

INSERT and UNION are one operation on the store: the union with a set of addresses. R156 and R173 are then
the laws of set union. -/

/-- `t` has the 1 bits of `s` and those in `p`, with the same dimensions and parameters. -/
structure AddsBits (s t : State) (p : Set Nat) : Prop where
  ones : t.ones = s.ones ∪ p
  wf : s.BITS.wf → t.BITS.wf
  dims : SameDims s t
  cfg : t.cfg = s.cfg

theorem AddsBits.setBits_send {s : State} {mem : Memory} {p : Set Nat} (rsp : List Word)
    (hread : ∀ j, mem.read j = true ↔ s.BITS.read j = true ∨ j ∈ p) (hwf : s.BITS.wf → mem.wf) :
    AddsBits s ((s.setBits mem).send rsp) p where
  ones := Set.ext hread
  wf := hwf
  dims := ⟨rfl, rfl⟩
  cfg := rfl

/-- A command that only answers adds no bit. -/
theorem AddsBits.send {s : State} {p : Set Nat} (hp : p = ∅) (rsp : List Word) : AddsBits s (s.send rsp) p :=
  AddsBits.setBits_send (mem := s.BITS) rsp (by simp [hp]) id

theorem AddsBits.trans {s t u : State} {p q : Set Nat} (h : AddsBits s t p) (h' : AddsBits t u q) :
    AddsBits s u (p ∪ q) where
  ones := by rw [h'.ones, h.ones, Set.union_assoc]
  wf := h'.wf ∘ h.wf
  dims := h.dims.trans h'.dims
  cfg := h'.cfg.trans h.cfg

theorem AddsBits.m_pos {s t : State} {p : Set Nat} (h : AddsBits s t p) (hM : 1 ≤ s.M.toNat) :
    1 ≤ t.M.toNat := h.dims.1 ▸ hM

/-- The bits added determine the store. -/
theorem AddsBits.bits_eq {s t u : State} {p : Set Nat} (hs : s.BITS.wf) (h : AddsBits s t p)
    (h' : AddsBits s u p) : t.BITS = u.BITS :=
  State.bits_eq_of_ones_eq (h'.wf hs) (h.wf hs) (h.ones.trans h'.ones.symm)

/-- Adding bits that are 1 already leaves the store as it is. -/
theorem AddsBits.bits_eq_of_subset {s t : State} {p : Set Nat} (hs : s.BITS.wf) (h : AddsBits s t p)
    (hp : p ⊆ s.ones) : t.BITS = s.BITS :=
  State.bits_eq_of_ones_eq hs (h.wf hs) (h.ones.trans (Set.union_eq_left.2 hp))

/-- A bit that is not added reads as before, whether in range or not. -/
theorem AddsBits.memRead_of_notMem {s t : State} {p : Set Nat} (h : AddsBits s t p) {j : Nat} (hj : j ∉ p) :
    t.memRead j = s.memRead j :=
  State.memRead_congr h.dims.1 (by simp [h.ones, hj])

/-- A bit that is 1 stays 1. -/
theorem AddsBits.memRead_true {s t : State} {p : Set Nat} (h : AddsBits s t p) {j : Nat}
    (hj : s.memRead j = some true) : t.memRead j = some true := by
  obtain ⟨hlt, hone⟩ := State.memRead_eq_some_true.1 hj
  exact State.memRead_eq_some_true.2 ⟨h.dims.1 ▸ hlt, h.ones ▸ .inl hone⟩

/-! ## The bits a command adds -/

/-- The `K` probe addresses of a string: `locate(derive(x), i, M)` for `i < K` (R155, R160). -/
def State.probes (s : State) (x : List Byte) : Set Nat :=
  {j | ∃ i < s.K.toNat, s.probe (deriveWords s.cfg.hash x) i = j}

/-- The addresses whose bits a command sets: an INSERT within `L_MAX` the probes of its string, a UNION of
the filter's dimensions the 1 bits of its image below `M`, any other command none. -/
def State.addedBits (s : State) : Instr → Set Nat
  | .insert x => {j | x.length ≤ s.cfg.lMax.toNat ∧ j ∈ s.probes x}
  | .union m k img => {j | s.M = m ∧ s.K = k ∧ j < m.toNat ∧ imageBit img j = true}
  | _ => ∅

/-- The probes depend on the dimensions and the hash alone. -/
theorem State.probes_congr {s t : State} (hd : SameDims s t) (hh : t.cfg.hash = s.cfg.hash) (x : List Byte) :
    t.probes x = s.probes x := by
  obtain ⟨hM, hK⟩ := hd
  simp only [State.probes, State.probe, hM, hK, hh]

theorem State.addedBits_congr {s t : State} (hd : SameDims s t) (hc : t.cfg = s.cfg) (i : Instr) :
    t.addedBits i = s.addedBits i := by
  obtain ⟨hM, hK⟩ := id hd
  cases i with
  | insert x => simp only [State.addedBits, State.probes_congr hd (congrArg _ hc), hc]
  | union m k img => simp only [State.addedBits, hM, hK]
  | _ => rfl

theorem State.lt_of_mem_probes {s : State} (hM : 1 ≤ s.M.toNat) {x : List Byte} {j : Nat}
    (hj : j ∈ s.probes x) : j < s.M.toNat := by
  obtain ⟨i, -, rfl⟩ := hj
  exact s.probe_lt _ i hM

theorem State.probes_nonempty {s : State} (hK : 1 ≤ s.K.toNat) (x : List Byte) : (s.probes x).Nonempty :=
  ⟨_, 0, hK, rfl⟩

/-- With one bit every probe goes to it (R138). -/
theorem State.probes_of_M_eq_one {s : State} (hM : s.M = 1) (hK : 1 ≤ s.K.toNat) (x : List Byte) :
    s.probes x = {0} := by
  have hprobe : ∀ i, s.probe (deriveWords s.cfg.hash x) i = 0 := fun i => by
    rw [State.probe, hM, locate_one]
    rfl
  refine Set.eq_singleton_iff_unique_mem.2 ⟨⟨0, hK, hprobe 0⟩, ?_⟩
  rintro j ⟨i, -, rfl⟩
  exact hprobe i

/-! ## INSERT (R155) -/

/-- The loop runs past its first probe only in a store with at least one bit. -/
theorem State.setProbes_eq_some {s t : State} {h : HashWords} {n : Nat} (ht : s.setProbes h n = some t) :
    n = 0 ∨ 0 < s.M.toNat := by
  induction n generalizing t with
  | zero => exact .inl rfl
  | succ n ih =>
    obtain ⟨u, hu, hw⟩ := Option.bind_eq_some_iff.1 ht
    obtain rfl | hM := ih hu
    · cases hu
      exact .inr (Nat.zero_lt_of_lt (State.memWrite_cases hw).1)
    · exact .inr hM

/-- All that INSERT's loop can do, in any store. -/
theorem State.setProbes_cases {s t : State} {h : HashWords} {n : Nat} (ht : s.setProbes h n = some t) :
    ∃ mem, t = s.setBits mem ∧
      (∀ j, mem.read j = true ↔ s.BITS.read j = true ∨ ∃ i < n, s.probe h i = j) ∧ (s.BITS.wf → mem.wf) := by
  obtain rfl | hM := State.setProbes_eq_some ht
  · cases ht
    exact ⟨s.BITS, rfl, by simp, id⟩
  · obtain ⟨mem, he, hread, hwf, -⟩ := s.setProbes_spec h hM n
    cases he.symm.trans ht
    exact ⟨mem, rfl, hread, hwf⟩

theorem exec_insert_of_lt {x : List Byte} {s : State} (h : s.cfg.lMax.toNat < x.length) :
    exec (.insert x) s = .next (s.raiseTooLong .insert x) := by
  simp [exec, execInsert, h]

theorem exec_insert_of_le {x : List Byte} {s : State} (h : x.length ≤ s.cfg.lMax.toNat) :
    exec (.insert x) s =
      finish (s.setProbes (deriveWords s.cfg.hash x) s.K.toNat) fun t => t.respond .insert [] := by
  simp [exec, execInsert, Nat.not_lt.2 h]

theorem exec_insert_addsBits {x : List Byte} {s t : State} (h : exec (.insert x) s = .next t) :
    AddsBits s t (s.addedBits (.insert x)) := by
  by_cases hlen : x.length ≤ s.cfg.lMax.toNat
  · rw [exec_insert_of_le hlen] at h
    obtain ⟨u, hu, rfl⟩ := finish_eq_next h
    obtain ⟨mem, rfl, hread, hwf⟩ := State.setProbes_cases hu
    exact AddsBits.setBits_send _ (by simpa [State.addedBits, State.probes, hlen] using hread) hwf
  · rw [exec_insert_of_lt (Nat.not_le.1 hlen)] at h
    cases h
    exact AddsBits.send (by simp [State.addedBits, hlen]) _

/-- INSERT of a string within `L_MAX`, into a filter with at least one bit. -/
theorem exec_insert {x : List Byte} {s : State} (hM : 1 ≤ s.M.toNat) (hlen : x.length ≤ s.cfg.lMax.toNat) :
    ∃ t, exec (.insert x) s = .next t ∧ AddsBits s t (s.probes x) ∧
      Emits s t [0x0000000000000200] ∧ SameInterface s t := by
  obtain ⟨mem, he, -⟩ := s.setProbes_spec (deriveWords s.cfg.hash x) hM s.K.toNat
  have hexec : exec (.insert x) s = .next ((s.setBits mem).respond .insert []) := by
    rw [exec_insert_of_le hlen, he, finish_some]
  have hadds := exec_insert_addsBits hexec
  have hprobes : s.addedBits (.insert x) = s.probes x := Set.ext fun j => and_iff_right hlen
  exact ⟨_, hexec, hprobes ▸ hadds, rfl, exec_sameInterface hexec⟩

/-! ## CONTAINS (R160) -/

/-- Every probed bit of the string is 1. -/
def State.Holds (s : State) (x : List Byte) : Prop := s.probes x ⊆ s.ones

theorem AddsBits.holds_iff {s t : State} {p : Set Nat} (h : AddsBits s t p) (x : List Byte) :
    t.Holds x ↔ s.probes x ⊆ s.ones ∪ p := by
  rw [State.Holds, State.probes_congr h.dims (congrArg _ h.cfg), h.ones]

theorem AddsBits.holds {s t : State} {p : Set Nat} (h : AddsBits s t p) {x : List Byte} (hx : s.Holds x) :
    t.Holds x :=
  (h.holds_iff x).2 (Set.subset_union_of_subset_left hx p)

theorem State.holds_iff_memRead {s : State} (hM : 1 ≤ s.M.toNat) (x : List Byte) :
    s.Holds x ↔ ∀ i < s.K.toNat, s.memRead (s.probe (deriveWords s.cfg.hash x) i) = some true := by
  constructor
  · intro h i hi
    exact State.memRead_eq_some_true.2 ⟨s.probe_lt _ i hM, h ⟨i, hi, rfl⟩⟩
  · rintro h j ⟨i, hi, rfl⟩
    exact (State.memRead_eq_some_true.1 (h i hi)).2

/-- A command answers one response only. -/
theorem AnswersOnly.unique {i : Instr} {s : State} {a b : List Word} (ha : AnswersOnly i s a)
    (hb : AnswersOnly i s b) : a = b := by
  have h := ha.symm.trans hb
  simpa using h

theorem answersOnly_contains_of_lt {x : List Byte} {s : State} (h : s.cfg.lMax.toNat < x.length) :
    AnswersOnly (.contains x) s [0x0000000000000304, dataLength x] := by
  simp only [AnswersOnly, exec, execContains, (s.tooLong_iff x).2 h, if_true]
  rfl

open Classical in
theorem answersOnly_contains {x : List Byte} {s : State} (hM : 1 ≤ s.M.toNat)
    (hlen : x.length ≤ s.cfg.lMax.toNat) :
    AnswersOnly (.contains x) s [0x0000000000000300, if s.Holds x then 1 else 0] := by
  obtain ⟨b, he, hb⟩ := s.allProbesSet_zero (deriveWords s.cfg.hash x) hM s.K.toNat
  have hholds : b = true ↔ s.Holds x :=
    hb.trans ⟨fun h j ⟨i, hi, hj⟩ => hj ▸ h i hi, fun h i hi => h ⟨i, hi, rfl⟩⟩
  have hlong : s.tooLong x = false := by simp [State.tooLong, hlen]
  simp only [AnswersOnly, exec, execContains, hlong, he, finish_some, ← hholds]
  rfl

/-- The answer 1, where a refusal is ruled out by its own status word. -/
theorem answersOnly_contains_one_iff {x : List Byte} {s : State} (hM : 1 ≤ s.M.toNat) :
    AnswersOnly (.contains x) s [0x0000000000000300, 1] ↔ x.length ≤ s.cfg.lMax.toNat ∧ s.Holds x := by
  constructor
  · intro h
    by_cases hlen : x.length ≤ s.cfg.lMax.toNat
    · have hbit := h.unique (answersOnly_contains hM hlen)
      exact ⟨hlen, by simpa using hbit⟩
    · have hbit := h.unique (answersOnly_contains_of_lt (Nat.not_le.1 hlen))
      simp at hbit
  · rintro ⟨hlen, hx⟩
    simpa [hx] using answersOnly_contains hM hlen

theorem answersOnly_contains_zero {x : List Byte} {s : State} (hM : 1 ≤ s.M.toNat)
    (hlen : x.length ≤ s.cfg.lMax.toNat) (hx : ¬ s.Holds x) :
    AnswersOnly (.contains x) s [0x0000000000000300, 0] := by
  simpa [hx] using answersOnly_contains hM hlen

/-- Equal filters under the same hash and `L_MAX` answer every CONTAINS alike. -/
theorem answersOnly_contains_congr {s u : State} (hM : 1 ≤ s.M.toNat) (hf : SameFilter s u)
    (hh : u.cfg.hash = s.cfg.hash) (hl : u.cfg.lMax = s.cfg.lMax) {x : List Byte} {rsp : List Word}
    (h : AnswersOnly (.contains x) s rsp) : AnswersOnly (.contains x) u rsp := by
  obtain ⟨hd, hB⟩ := hf
  by_cases hlen : x.length ≤ s.cfg.lMax.toNat
  · have hholds : u.Holds x ↔ s.Holds x := by
      rw [State.Holds, State.Holds, State.probes_congr hd hh, State.ones, State.ones, hB]
    have hu := answersOnly_contains (s := u) (hd.1 ▸ hM) (hl ▸ hlen)
    rw [h.unique (answersOnly_contains hM hlen)]
    rwa [hholds] at hu
  · rw [h.unique (answersOnly_contains_of_lt (Nat.not_le.1 hlen))]
    exact answersOnly_contains_of_lt (hl ▸ Nat.not_le.1 hlen)

/-! ## UNION (R170 to R172) -/

theorem decode_union {mO : Word} {img : List Word} (h : img.length = ceilDiv mO.toNat 64) (kO : Word)
    (rest : List Word) :
    decode (0x05 :: mO :: kO :: (img ++ rest)) = .command (.union mO kO img) rest :=
  decode_encode_append (i := .union mO kO img) (by simpa [WellFormed, imageFits] using h) rest

theorem answersOnly_union_of_M_ne {mO : Word} {s : State} (h : s.M ≠ mO) (kO : Word) (img : List Word) :
    AnswersOnly (.union mO kO img) s [0x0000000000000501, s.M, mO] := by
  simp only [AnswersOnly, exec, execUnion, if_pos h]
  rfl

theorem answersOnly_union_of_K_ne {mO kO : Word} {s : State} (hM : s.M = mO) (hK : s.K ≠ kO) (img : List Word) :
    AnswersOnly (.union mO kO img) s [0x0000000000010501, s.K, kO] := by
  simp only [AnswersOnly, exec, execUnion, if_neg (not_not.2 hM), if_pos hK]
  rfl

theorem exec_union_addsBits {mO kO : Word} {img : List Word} {s t : State}
    (h : exec (.union mO kO img) s = .next t) : AddsBits s t (s.addedBits (.union mO kO img)) := by
  by_cases hM : s.M = mO
  · by_cases hK : s.K = kO
    · subst hM hK
      obtain ⟨mem, he, hread, hwf, -⟩ := s.orImage_spec img s.M.toNat (le_refl _)
      obtain rfl : (s.setBits mem).respond .union [] = t := by simpa [exec, execUnion, he] using h
      exact AddsBits.setBits_send _ (fun j => by simp [State.addedBits, hread]) hwf
    · cases (answersOnly_union_of_K_ne hM hK img).symm.trans h
      exact AddsBits.send (by simp [State.addedBits, hK]) _
  · cases (answersOnly_union_of_M_ne hM kO img).symm.trans h
    exact AddsBits.send (by simp [State.addedBits, hM]) _

/-- The image of a filter has exactly its 1 bits below `M` (R72). -/
theorem State.imageBit_imageWords_iff (s : State) (j : Nat) :
    imageBit s.imageWords j = true ↔ j < s.M.toNat ∧ j ∈ s.ones := by
  simp [State.imageBit_imageWords, State.mem_ones]

/-- A UNION with the image of a filter of the same dimensions adds that filter's bits. -/
theorem State.addedBits_union_imageWords {s o : State} (hd : SameDims s o) :
    s.addedBits (.union o.M o.K o.imageWords) = {j | j < o.M.toNat ∧ j ∈ o.ones} := by
  obtain ⟨hM, hK⟩ := hd
  ext j
  simp [State.addedBits, State.imageBit_imageWords_iff, hM, hK]

/-- The OR of two images adds what each adds. -/
theorem State.addedBits_union_or (s : State) (m k : Word) {a b ab : List Word}
    (h : ∀ j, imageBit ab j = (imageBit a j || imageBit b j)) :
    s.addedBits (.union m k ab) = s.addedBits (.union m k a) ∪ s.addedBits (.union m k b) := by
  ext j
  simp only [State.addedBits, Set.mem_ofPred_eq, Set.mem_union, h, Bool.or_eq_true]
  tauto

/-! ## Every command but NEW and CLEAR adds bits -/

/-- R47: a command that writes no register and no bit only answers. -/
theorem exec_of_readOnly {i : Instr} {s t : State} (hsets : setsBitsOnly i = false) (hclear : i ≠ .clear)
    (hnew : ∀ m k, i ≠ .new m k) (h : exec i s = .next t) : ∃ rsp, t = s.send rsp := by
  obtain hsend | ⟨m, k, hi, -⟩ | ⟨hi, -⟩ | ⟨hi, -⟩ := exec_cases h
  · exact hsend
  · exact absurd hi (hnew m k)
  · exact absurd hi hclear
  · simp [hsets] at hi

theorem exec_addsBits {i : Instr} {s t : State} (hclear : i ≠ .clear) (hnew : ∀ m k, i ≠ .new m k)
    (h : exec i s = .next t) : AddsBits s t (s.addedBits i) := by
  cases i with
  | insert x => exact exec_insert_addsBits h
  | union m k img => exact exec_union_addsBits h
  | new m k => exact absurd rfl (hnew m k)
  | clear => exact absurd rfl hclear
  | contains | clone | capacity | k | derive | locate =>
    obtain ⟨rsp, rfl⟩ := exec_of_readOnly rfl hclear hnew h
    exact AddsBits.send rfl rsp

/-- After a command that adds bits, what the next one adds is what it would have added before. -/
theorem AddsBits.trans_exec {s t u : State} {p : Set Nat} {i : Instr} (h : AddsBits s t p) (hclear : i ≠ .clear)
    (hnew : ∀ m k, i ≠ .new m k) (hu : exec i t = .next u) : AddsBits s u (p ∪ s.addedBits i) :=
  h.trans (State.addedBits_congr h.dims h.cfg i ▸ exec_addsBits hclear hnew hu)

/-- A property that every command of a list keeps holds at the end of the list. -/
theorem performAll_induction {P : State → Prop} {cs : List Instr}
    (hstep : ∀ c ∈ cs, ∀ s t, P s → exec c s = .next t → P t) {s t : State} (hs : P s)
    (h : performAll cs s = .next t) : P t := by
  induction cs generalizing s with
  | nil => cases h; exact hs
  | cons c cs ih =>
    obtain ⟨u, hu, ht⟩ := performAll_cons_eq_next.1 h
    obtain ⟨hc, hcs⟩ := List.forall_mem_cons.1 hstep
    exact ih hcs (hc s u hs hu) ht

theorem performAll_addsBits {cs : List Instr} (hcs : ∀ c ∈ cs, c ≠ .clear ∧ ∀ m k, c ≠ .new m k)
    {s t : State} (h : performAll cs s = .next t) : ∃ p, AddsBits s t p := by
  refine performAll_induction (P := fun u => ∃ p, AddsBits s u p) (fun c hc u v hu hv => ?_)
    ⟨∅, by simpa [State.send] using AddsBits.send (s := s) rfl []⟩ h
  obtain ⟨p, hp⟩ := hu
  obtain ⟨hclear, hnew⟩ := hcs c hc
  exact ⟨_, hp.trans_exec hclear hnew hv⟩

/-! ## NEW and CLEAR (R150, R151, R165) -/

theorem clampToOne_toNat (v : Word) : (clampToOne v).toNat = max v.toNat 1 := by
  by_cases hv : v = 0
  · rw [hv]; rfl
  · have hpos : 1 ≤ v.toNat := by bv_omega
    rw [clampToOne_of_pos hpos, max_eq_left hpos]

theorem clampToOne_eq_ofNat (v : Word) : clampToOne v = BitVec.ofNat 64 (max v.toNat 1) := by
  rw [← clampToOne_toNat, BitVec.ofNat_toNat, BitVec.setWidth_eq]

/-- NEW beyond the capacity (R152). -/
theorem answersOnly_new_of_lt {m : Word} {s : State} (h : s.cfg.mMax.toNat < (clampToOne m).toNat) (k : Word) :
    AnswersOnly (.new m k) s [0x0000000000000103, clampToOne m, s.cfg.mMax] := by
  simp only [AnswersOnly, exec, execNew, if_pos h]
  rfl

theorem State.memRead_of_zero {s : State} {j : Nat} (h : s.BITS = Memory.zero) (hj : j < s.M.toNat) :
    s.memRead j = some false := by
  rw [State.memRead_of_lt hj, h, Memory.read_zero]

theorem State.ones_eq_empty_of_zero {s : State} (h : s.BITS = Memory.zero) : s.ones = ∅ := by
  ext j
  simp [State.mem_ones, h]

/-- The loop of bit writes up to `n` unlists exactly the addresses below `n` (R165). -/
theorem zeroLoop_spec (s : State) (n : Nat) (hn : n ≤ s.M.toNat) :
    ∃ mem : Memory, zeroLoop s n = some (s.setBits mem) ∧ ∀ j, j ∈ mem ↔ j ∈ s.BITS ∧ n ≤ j := by
  induction n with
  | zero => exact ⟨s.BITS, rfl, by simp⟩
  | succ n ih =>
    obtain ⟨mem, he, hmem⟩ := ih (by omega)
    refine ⟨mem.write n false, ?_, fun j => ?_⟩
    · rw [zeroLoop, he, Option.bind_some, State.memWrite_of_lt (by simpa using hn), State.setBits_setBits,
        State.setBits_BITS]
    · simp only [Memory.write, Bool.false_eq_true, if_false, Memory.mem_setZero, hmem]
      have hnext : n + 1 ≤ j ↔ j ≠ n ∧ n ≤ j := by omega
      rw [hnext]
      tauto

/-- No command but INSERT and a UNION with a 1 bit in its image sets a bit of an empty store (R166). -/
theorem exec_keeps_ones_empty {i : Instr} {s t : State} (hs : s.ones = ∅) (hi : s.addedBits i = ∅)
    (h : exec i s = .next t) : t.ones = ∅ := by
  by_cases hclear : i = .clear
  · subst hclear
    cases h
    exact State.ones_eq_empty_of_zero rfl
  by_cases hnew : ∃ m k, i = .new m k
  · obtain ⟨m, k, rfl⟩ := hnew
    obtain ⟨rsp, rfl⟩ | ⟨_, _, -, -, rfl⟩ | ⟨hi, -⟩ | ⟨hi, -⟩ := exec_cases h
    · exact hs
    · exact State.ones_eq_empty_of_zero rfl
    · cases hi
    · cases hi
  · rw [(exec_addsBits hclear (by simpa using hnew) h).ones, hs, hi, Set.union_empty]

/-! ## CLONE (R72, R175) -/

theorem answersOnly_clone (s : State) :
    AnswersOnly .clone s (0x0000000000000600 :: s.M :: s.K :: s.imageWords) := rfl

/-- The image is a function of what `MemRead` answers and `M`. -/
theorem State.imageWords_congr {s t : State} (hf : SameFilter s t) : t.imageWords = s.imageWords := by
  obtain ⟨⟨hM, -⟩, hB⟩ := hf
  have hread : ∀ j, t.memRead j = s.memRead j := fun j => by rw [State.memRead_eq, State.memRead_eq, hM, hB]
  have hword : ∀ w n, t.cloneWord w n = s.cloneWord w n := by
    intro w n
    induction n with
    | zero => rfl
    | succ n ih => simp only [State.cloneWord, hread, ih]
  simp only [State.imageWords, hM, hword]

/-- The image of a filter, united into a filter with every bit 0, makes the same filter (R176). -/
theorem exec_union_imageWords_of_zero {s v : State} (hs : Inv s) (hd : SameDims s v)
    (hv : v.BITS = Memory.zero) :
    ∃ u, exec (.union s.M s.K s.imageWords) v = .next u ∧ SameFilter s u ∧ Emits v u [0x0000000000000500] := by
  obtain ⟨mem, hunion, -⟩ := exec_union_of_sameDims v s.imageWords
  rw [hd.1, hd.2] at hunion
  have hadds := exec_union_addsBits hunion
  have hones := hadds.ones
  rw [State.ones_eq_empty_of_zero hv, Set.empty_union,
    State.addedBits_union_imageWords ⟨hd.1.symm, hd.2.symm⟩] at hones
  have hbelow : {j | j < s.M.toNat ∧ j ∈ s.ones} = s.ones :=
    Set.ext fun j => and_iff_right_of_imp hs.lt_of_mem_ones
  exact ⟨_, hunion, ⟨hd.trans hadds.dims,
    State.bits_eq_of_ones_eq hs.bits_wf (hadds.wf (hv ▸ Memory.zero_wf)) (hones.trans hbelow)⟩, rfl⟩

/-! ## The obligations -/

/-- Settles O8: NEW builds its filter from the clamped operands, or refuses the clamped `m`. -/
theorem newBuildsEmptyFilterOrRefuses : Obligations.NewBuildsEmptyFilterOrRefuses := by
  intro m k s
  rw [← clampToOne_eq_ofNat, ← clampToOne_toNat, ← clampToOne_toNat]
  refine ⟨fun rest => decode_encode_append (i := .new m k) rfl rest, fun hle => ?builds, fun hlt => ?refuses⟩
  case builds =>
    exact ⟨_, exec_new_of_le hle, rfl, rfl, fun j hj => State.memRead_of_zero rfl hj, rfl, rfl, rfl, rfl, rfl⟩
  case refuses => exact answersOnly_new_of_lt hlt k

/-- Settles O9: the words decode because they carry the string, and `exec_insert` gives the bits added. -/
theorem insertSetsExactlyTheProbedBits : Obligations.InsertSetsExactlyTheProbedBits := by
  intro data s
  refine ⟨fun ws rest hlen hws => ?decodes, fun hM hlen => ?inserts, fun hlt => exec_insert_of_lt hlt⟩
  case decodes =>
    obtain ⟨words, hdata, hdecode⟩ := decode_of_carryBytes (op := .insert) rfl hlen hws rest
    exact hdecode.trans (by rw [assembleOperands, hdata])
  case inserts =>
    obtain ⟨t, hexec, hadds, hemits, hinterface⟩ := exec_insert hM hlen
    refine ⟨t, hexec, fun i hi => ?_, fun j hj => ?_, hadds.dims, hemits, hinterface⟩
    · rw [State.memRead_eq_some_true, hadds.dims.1, hadds.ones]
      exact ⟨s.probe_lt _ i hM, .inr ⟨i, hi, rfl⟩⟩
    · exact hadds.memRead_of_notMem fun ⟨i, hi, he⟩ => hj i hi he

/-- Settles O10: each INSERT is the union of the store with a set that the INSERTs before it do not change. -/
theorem insertIsMonotoneIdempotentCommutative : Obligations.InsertIsMonotoneIdempotentCommutative := by
  intro x y s sx sxx sxy sy syx hwf hx hxx hxy hy hyx
  have hsx := exec_insert_addsBits hx
  have hsy := exec_insert_addsBits hy
  have hsxx := hsx.trans_exec (by simp) (by simp) hxx
  have hsxy := hsx.trans_exec (by simp) (by simp) hxy
  have hsyx := hsy.trans_exec (by simp) (by simp) hyx
  rw [Set.union_self] at hsxx
  rw [Set.union_comm] at hsyx
  exact ⟨fun j => hsx.memRead_true, hsxx.bits_eq hwf hsx, hsxy.bits_eq hwf hsyx⟩

/-- Settles O11: the answer is 1 exactly when the filter holds the string. -/
theorem containsTestsEveryProbedBit : Obligations.ContainsTestsEveryProbedBit := by
  intro data s
  refine ⟨fun ws rest hlen hws => ?decodes, fun hM hlen => ?answers, fun hlt => answersOnly_contains_of_lt hlt⟩
  case decodes =>
    obtain ⟨words, hdata, hdecode⟩ := decode_of_carryBytes (op := .contains) rfl hlen hws rest
    exact hdecode.trans (by rw [assembleOperands, hdata])
  case answers =>
    classical
    refine ⟨decide (s.Holds data), ?_, decide_eq_true_iff.trans (s.holds_iff_memRead hM data)⟩
    simpa using answersOnly_contains hM hlen

/-- Settles O12: INSERT makes the filter hold `x`, and commands that only add bits keep it held. -/
theorem noFalseNegatives : Obligations.NoFalseNegatives := by
  intro x between s t u hs hlen hinsert hbetween hperform
  obtain ⟨t', ht', hadds, -⟩ := exec_insert hs.m_pos hlen
  obtain rfl : t' = t := by simpa [ht'] using hinsert
  have hholds : t'.Holds x := (hadds.holds_iff x).2 Set.subset_union_right
  obtain ⟨p, hu⟩ := performAll_addsBits hbetween hperform
  exact (answersOnly_contains_one_iff (hu.m_pos (hadds.m_pos hs.m_pos))).2
    ⟨by rwa [hu.cfg, hadds.cfg], hu.holds hholds⟩

/-- Settles O13: CLEAR empties the store, no command in between adds a bit, and a string has at least one
probe, whose bit is therefore 0. -/
theorem nothingContainedAfterClear : Obligations.NothingContainedAfterClear := by
  intro x between s t u hs hlen hclear hbetween hperform
  have hnone : ∀ c ∈ between, ∀ v : State, v.addedBits c = ∅ := by
    intro c hc v
    obtain ⟨hinsert, hunion⟩ := hbetween c hc
    cases c with
    | insert d => exact absurd rfl (hinsert d)
    | union m k img =>
      refine Set.eq_empty_iff_forall_notMem.2 fun j ⟨_, _, hj, hbit⟩ => ?_
      exact Bool.false_ne_true ((hunion m k img rfl j hj).symm.trans hbit)
    | _ => rfl
  obtain ⟨hu, hcfg, hones⟩ : Inv u ∧ u.cfg = s.cfg ∧ u.ones = ∅ := by
    refine performAll_induction (P := fun v => Inv v ∧ v.cfg = s.cfg ∧ v.ones = ∅)
      (fun c hc v w hv hw => ?_) ?_ hperform
    · obtain ⟨hinv, hcfg, hones⟩ := hv
      obtain ⟨-, -, -, hcfg'⟩ := exec_sameInterface hw
      exact ⟨exec_keeps_inv hinv hw, hcfg'.trans hcfg, exec_keeps_ones_empty hones (hnone c hc v) hw⟩
    · cases hclear
      exact ⟨hs.zeroStore.send _, rfl, State.ones_eq_empty_of_zero rfl⟩
  refine answersOnly_contains_zero hu.m_pos (by rwa [hcfg]) fun hx => ?_
  obtain ⟨j, hj⟩ := u.probes_nonempty hu.k_pos x
  simpa [hones] using hx hj

/-- Settles O14: every probe goes to bit 0, so a string is held exactly when bit 0 is 1. -/
theorem oneBitFilterHoldsEverything : Obligations.OneBitFilterHoldsEverything := by
  intro x y s hM hK hx hy
  have hpos : 1 ≤ s.M.toNat := by rw [hM]; decide
  have hprobes := State.probes_of_M_eq_one hM hK
  constructor
  · obtain ⟨t, hexec, hadds, -⟩ := exec_insert hpos hx
    rw [hprobes] at hadds
    have hone : 0 ∈ t.ones := by simp [hadds.ones]
    have hholds : t.Holds y := (hadds.holds_iff y).2 (hprobes y ▸ Set.subset_union_right)
    exact ⟨t, hexec, State.memRead_eq_some_true.2 ⟨hadds.m_pos hpos, hone⟩,
      (answersOnly_contains_one_iff (hadds.m_pos hpos)).2 ⟨by rwa [hadds.cfg], hholds⟩⟩
  · intro hzero
    refine answersOnly_contains_zero hpos hy fun hholds => (State.memRead_eq_some_false.1 hzero).2 (hholds ?_)
    rw [hprobes]
    rfl

/-- Settles O15: CLEAR is one assignment of the zero store. -/
theorem clearZeroesEveryBit : Obligations.ClearZeroesEveryBit := by
  refine ⟨fun rest => decode_encode_append (i := .clear) rfl rest, fun s => ?_⟩
  exact ⟨s.zeroStore.respond .clear [], rfl, fun j hj => State.memRead_of_zero rfl hj, ⟨rfl, rfl⟩, rfl, rfl, rfl,
    rfl, rfl⟩

/-- Settles O16: the loop of bit writes leaves no address of the store listed, as the one assignment does. -/
theorem zeroingIsTheLoopOfBitWrites : Obligations.ZeroingIsTheLoopOfBitWrites := by
  intro s hlt
  obtain ⟨mem, he, hmem⟩ := zeroLoop_spec s s.M.toNat (le_refl _)
  obtain rfl : mem = Memory.zero := List.eq_nil_iff_forall_not_mem.2 fun j hj => by
    obtain ⟨hj, hge⟩ := (hmem j).1 hj
    exact absurd (hlt j hj) (Nat.not_lt.2 hge)
  exact ⟨_, he, rfl⟩

/-- Settles O17: of equal dimensions the loop ORs the image into the store, and the two comparisons come in
the order of R171. -/
theorem unionOrsOrReportsMismatch : Obligations.UnionOrsOrReportsMismatch := by
  intro mO kO img s
  refine ⟨fun hlen => decode_union hlen kO, ?unites, fun hM => answersOnly_union_of_M_ne hM kO img,
    fun hM hK => answersOnly_union_of_K_ne hM hK img⟩
  case unites =>
    rintro rfl rfl
    obtain ⟨mem, hexec, hread⟩ := exec_union_of_sameDims s img
    refine ⟨_, hexec, fun j b hj => ?_, ⟨rfl, rfl⟩, rfl, rfl, rfl, rfl, rfl⟩
    obtain ⟨hlt, rfl⟩ := State.memRead_eq_some.1 hj
    exact State.memRead_eq_some.2 ⟨hlt, hread j hlt⟩

/-- Settles O18: each UNION is the union of the store with the 1 bits of its image. -/
theorem unionIsAssociativeCommutativeIdempotent : Obligations.UnionIsAssociativeCommutativeIdempotent := by
  intro a b ab s sa saa sab sb sba sc hwf hab ha haa hab' hb hba hc
  have hsa := exec_union_addsBits ha
  have hsb := exec_union_addsBits hb
  have hsc := exec_union_addsBits hc
  have hsaa := hsa.trans_exec (by simp) (by simp) haa
  have hsab := hsa.trans_exec (by simp) (by simp) hab'
  have hsba := hsb.trans_exec (by simp) (by simp) hba
  rw [Set.union_self] at hsaa
  rw [Set.union_comm] at hsba
  rw [s.addedBits_union_or s.M s.K hab] at hsc
  exact ⟨hsaa.bits_eq hwf hsa, hsab.bits_eq hwf hsba, hsab.bits_eq hwf hsc⟩

/-- Settles O19: the UNION adds to this filter's bits those of `o`, among which are the probes of every string
that `o` held. -/
theorem unionKeepsMembershipOfBoth : Obligations.UnionKeepsMembershipOfBoth := by
  intro x s o t hs hM hK hcfg hunion hanswer
  have hadds := exec_union_addsBits hunion
  have hposO : 1 ≤ o.M.toNat := hM ▸ hs.m_pos
  rw [answersOnly_contains_one_iff hs.m_pos, answersOnly_contains_one_iff hposO, hcfg] at hanswer
  rw [answersOnly_contains_one_iff (hadds.m_pos hs.m_pos), hadds.cfg]
  obtain ⟨hlen, hx⟩ | ⟨hlen, hx⟩ := hanswer
  · exact ⟨hlen, hadds.holds hx⟩
  · refine ⟨hlen, ?_⟩
    rw [hadds.holds_iff, State.addedBits_union_imageWords ⟨hM, hK⟩,
      ← State.probes_congr ⟨hM, hK⟩ (congrArg _ hcfg)]
    exact fun j hj => .inr ⟨State.lt_of_mem_probes hposO hj, hx hj⟩

/-- Settles O20: the answer is `State.imageWords`, whose bits `State.imageBit_imageWords_iff` gives. -/
theorem cloneAnswersTheImage : Obligations.CloneAnswersTheImage := by
  refine ⟨fun rest => decode_encode_append (i := .clone) rfl rest, fun s =>
    ⟨s.imageWords, answersOnly_clone s, s.imageWords_length, fun j _ => ?_⟩⟩
  rw [Bool.eq_iff_iff, decide_eq_true_iff, State.memRead_eq_some_true]
  exact s.imageBit_imageWords_iff j

/-- Settles O21: NEW empties the store of `r`, and the UNION adds the bits of `s` to it. -/
theorem cloneImageLoadsToIdenticalFilter : Obligations.CloneImageLoadsToIdenticalFilter := by
  intro s r img hs hle hclone
  obtain rfl : s.imageWords = img := by simpa using (answersOnly_clone s).unique hclone
  obtain ⟨u, hunion, hfilter, hemits⟩ := exec_union_imageWords_of_zero hs
    (v := ((r.setDims s.M s.K).zeroStore).respond .new []) ⟨rfl, rfl⟩ rfl
  obtain ⟨-, -, -, hcfg⟩ := exec_sameInterface hunion
  refine ⟨u, performAll_cons_eq_next.2 ⟨_, exec_new_of_pos hs.m_pos hle hs.k_pos,
    performAll_cons_eq_next.2 ⟨u, hunion, rfl⟩⟩, ?emits, hfilter, ?clone, fun hh hl x rsp => ?contains⟩
  case emits => exact hemits.trans (List.append_assoc r.rspq _ _)
  case clone =>
    obtain ⟨hM, hK⟩ := hfilter.1
    rw [← State.imageWords_congr hfilter, ← hM, ← hK]
    exact answersOnly_clone u
  case contains => exact answersOnly_contains_congr hs.m_pos hfilter (by rwa [hcfg]) (by rwa [hcfg])

/-- Settles O22: the bits of its own image are 1 already. -/
theorem unionWithOwnCloneChangesNothing : Obligations.UnionWithOwnCloneChangesNothing := by
  intro s hs
  obtain ⟨mem, hunion, -⟩ := exec_union_of_sameDims s s.imageWords
  have hadds := exec_union_addsBits hunion
  rw [State.addedBits_union_imageWords ⟨rfl, rfl⟩] at hadds
  obtain rfl : mem = s.BITS := hadds.bits_eq_of_subset hs.bits_wf fun j hj => hj.2
  exact hunion

/-- Settles O23: each of the two answers its register, which after NEW is the clamped operand. -/
theorem capacityAndKReadTheRegisters : Obligations.CapacityAndKReadTheRegisters := by
  have hcapacity : ∀ s : State, AnswersOnly .capacity s [0x0000000000000700, s.M] := fun _ => rfl
  have hk : ∀ s : State, AnswersOnly .k s [0x0000000000000800, s.K] := fun _ => rfl
  refine ⟨fun rest => ⟨decode_encode_append (i := .capacity) rfl rest, decode_encode_append (i := .k) rfl rest⟩,
    fun s => ⟨hcapacity s, hk s⟩, fun m k s hle => ?_⟩
  rw [← clampToOne_toNat] at hle
  rw [← clampToOne_eq_ofNat, ← clampToOne_eq_ofNat]
  refine ⟨_, performAll_cons_eq_next.2 ⟨_, exec_new_of_le hle, performAll_cons_eq_next.2 ⟨_, hcapacity _,
    performAll_cons_eq_next.2 ⟨_, hk _, rfl⟩⟩⟩, ?_⟩
  change s.rspq ++ [0x0000000000000100] ++ [_, clampToOne m] ++ [_, clampToOne k] = _
  simp

end Sys2Proof.Machine

/-! PROOF. The errors of a command (R200 to R208): an error only answers, and no command and no step stops
the block. -/

namespace Sys2Proof.Machine

/-! ## What an error leaves as it was (R46, R205) -/

/-- A command either only answers, or it changes the filter and then responds OK without a payload. -/
theorem exec_sends_or_respondsOk {i : Instr} {s t : State} (h : exec i s = .next t) :
    (∃ rsp, t = s.send rsp) ∨ ∃ (u : State) (op : Opcode), u.rspq = s.rspq ∧ t = u.respond op [] := by
  obtain hsend | ⟨m, k, -, -, rfl⟩ | ⟨-, rfl⟩ | ⟨-, mem, -, rfl⟩ := exec_cases h
  · exact .inl hsend
  · exact .inr ⟨(s.setDims (clampToOne m) (clampToOne k)).zeroStore, .new, rfl, rfl⟩
  · exact .inr ⟨s.zeroStore, .clear, rfl, rfl⟩
  · exact .inr ⟨s.setBits mem, i.opcode, rfl, rfl⟩

/-- The status word that `respond OK` emits has STATUS 0 (R80, R81). -/
theorem rspStatus_of_emits_respond {s u : State} {op : Opcode} {payload rest : List Word} {rsp0 : Word}
    (hq : u.rspq = s.rspq) (h : Emits s (u.respond op payload) (rsp0 :: rest)) : rspStatus rsp0 = 0 := by
  rw [Emits, State.respond_eq, State.send_rspq, hq] at h
  obtain ⟨rfl, -⟩ := List.cons.inj (List.append_cancel_left h)
  exact rspStatus_statusWord .ok op.code 0

/-! ## Every command answers (R200, R208) -/

/-- With at least one bit in the store, every probe and every image bit that a command reads or writes lies
inside the store. -/
theorem exec_safe {s : State} (hM : 1 ≤ s.M.toNat) (i : Instr) : Safe (exec i s) := by
  cases i with
  | new m k =>
    rcases Nat.lt_or_ge s.cfg.mMax.toNat (clampToOne m).toNat with hlt | hle
    · exact ⟨_, answersOnly_new_of_lt hlt k⟩
    · exact ⟨_, exec_new_of_le hle⟩
  | insert data =>
    rcases Nat.lt_or_ge s.cfg.lMax.toNat data.length with hlt | hle
    · exact ⟨_, exec_insert_of_lt hlt⟩
    · obtain ⟨t, ht, -⟩ := exec_insert hM hle
      exact ⟨t, ht⟩
  | contains data =>
    rcases Nat.lt_or_ge s.cfg.lMax.toNat data.length with hlt | hle
    · exact ⟨_, answersOnly_contains_of_lt hlt⟩
    · exact ⟨_, answersOnly_contains hM hle⟩
  | union mO kO img =>
    by_cases hm : s.M = mO
    · by_cases hk : s.K = kO
      · subst hm hk
        obtain ⟨mem, ht, -⟩ := exec_union_of_sameDims s img
        exact ⟨_, ht⟩
      · exact ⟨_, answersOnly_union_of_K_ne hm hk img⟩
    · exact ⟨_, answersOnly_union_of_M_ne hm kO img⟩
  | derive data =>
    rcases Nat.lt_or_ge s.cfg.lMax.toNat data.length with hlt | hle
    · exact ⟨_, exec_derive_of_lt hlt⟩
    · exact ⟨_, exec_derive_of_le hle⟩
  | locate h0 h1 h2 h3 j m =>
    by_cases hm : m = 0
    · subst hm
      exact ⟨_, answersOnly_locate_zero_modulus h0 h1 h2 h3 j s⟩
    · exact ⟨_, answersOnly_locate h0 h1 h2 h3 j hm s⟩
  | clear | clone | capacity | k => exact ⟨_, rfl⟩

/-- Only a command that is performed could stop the block: reset, an illegal header and a word taken each
give a next state. -/
theorem step_safe {s : State} (hM : 1 ≤ s.M.toNat) : Safe (step s) := by
  obtain ⟨hr, -⟩ | ⟨hr, i, rest, hd, -⟩ | ⟨hr, w0, rest, hd, -⟩ | ⟨hr, hd, -⟩ := s.turn_cases
  · exact ⟨_, step_of_rst hr⟩
  · rw [step_of_command hr hd]
    exact exec_safe (s := s.setBuf rest) hM i
  · exact ⟨_, step_of_illegal hr hd⟩
  · exact ⟨_, step_of_incomplete hr hd⟩

/-! ## The obligations -/

/-- Settles O32: a command that does more than answer responds OK, so its STATUS is 0. -/
theorem errorsChangeNoState : Obligations.ErrorsChangeNoState := by
  intro i s t rsp0 payload h hemits hstatus
  refine ⟨?filter, exec_sameInterface h⟩
  obtain ⟨_, rfl⟩ | ⟨u, op, hq, rfl⟩ := exec_sends_or_respondsOk h
  · exact ⟨⟨rfl, rfl⟩, rfl⟩
  · exact absurd (rspStatus_of_emits_respond hq hemits) hstatus

/-- Settles O46: the invariant gives `1 ≤ M`, which is all that the commands and the step need. -/
theorem noCommandStopsTheBlock : Obligations.NoCommandStopsTheBlock :=
  fun _ hs => ⟨step_safe hs.m_pos, exec_safe hs.m_pos⟩

end Sys2Proof.Machine

/-! PROOF. Runs and what is observed of them (R230 to R241): reset hides what came before it, the stream of
words sent decodes to the commands sent, and every event of a run keeps the outcome it is heading for. -/

namespace Sys2Proof.Machine

/-! ## The events of a run -/

theorem Run.extend_step_eq_some {r r' : Run} :
    r.extend .step = some r' ↔ ∃ t, step r.state = .next t ∧ r' = r.setState t := by
  rw [Run.extend, Option.map_eq_some_iff]
  simp only [State.stepNext_eq_some, eq_comm (a := r')]

theorem Run.extend_send_of_not {r : Run} (hr : r.state.rst = false) (w : Word) :
    r.extend (.send w) = some (r.setState (r.state.setCmdq (r.state.cmdq ++ [w]))) := by
  simp [Run.extend, State.hostSend, hr]

theorem Run.extend_take_eq_some {r r' : Run} (h : r.extend .take = some r') :
    ∃ w rest, r.state.rspq = w :: rest ∧ r' = ⟨r.taken ++ [w], { r.state with rspq := rest }⟩ := by
  obtain ⟨⟨w, t⟩, ht, rfl⟩ := Option.map_eq_some_iff.1 h
  obtain ⟨rest, hq, rfl⟩ := State.hostTake_eq_some ht
  exact ⟨w, rest, hq, rfl⟩

theorem Run.extendAll_cons_eq_some {r r' : Run} {e : Event} {es : List Event} :
    r.extendAll (e :: es) = some r' ↔ ∃ q, r.extend e = some q ∧ q.extendAll es = some r' :=
  Option.bind_eq_some_iff

/-- A block that is idle, its channel empty, holds its state (R216). -/
theorem step_of_quiescent {s : State} (hs : Quiescent s) : step s = .next s := by
  obtain ⟨hq, hb, hr⟩ := hs
  rw [step_of_incomplete hr (by rw [hb]; rfl), State.takeWord_nil hq]

/-- An idle block takes the one word sent to it. -/
theorem step_of_one_word {s : State} (hq : s.cmdq = []) (hb : s.cmdbuf = []) (hr : s.rst = false) (w : Word) :
    step (s.setCmdq [w]) = .next (s.setBuf [w]) := by
  have hinc : decode (s.setCmdq [w]).cmdbuf = .incomplete := by rw [State.setCmdq_cmdbuf, hb]; rfl
  have hbuf : (s.setCmdq [w]).takeWord = (s.setBuf [w]).setCmdq s.cmdq := by
    rw [State.takeWord_cons (s := s.setCmdq [w]) rfl, State.setCmdq_cmdbuf, hb, hq]
    rfl
  rw [step_of_incomplete (s := s.setCmdq [w]) hr hinc, hbuf]
  rfl

@[simp] theorem State.setBuf_setBuf (s : State) (a b : List Word) : (s.setBuf a).setBuf b = s.setBuf b := rfl

/-! ## Outcomes -/

theorem Run.outcome_of_not {r : Run} (h : r.state.rst = false) :
    r.outcome = ⟨r.taken ++ r.state.rspq, r.state.M, r.state.K, r.state.imageWords⟩ := by
  rw [Run.outcome, State.settled_of_not h]

/-- With a reset pending the outcome is that of the run in which the block has acted on it (R232). -/
theorem Run.outcome_of_rst {r : Run} (h : r.state.rst = true) :
    r.outcome = (r.setState (State.resetWith r.state.cfg)).outcome := by
  rw [Run.outcome, State.settled_of_rst h]
  rfl

/-- Of two runs with a reset pending, only the words taken and the parameters show. -/
theorem Run.outcome_congr_of_rst {r q : Run} (hr : r.state.rst = true) (hq : q.state.rst = true)
    (htaken : q.taken = r.taken) (hcfg : q.state.cfg = r.state.cfg) : q.outcome = r.outcome := by
  rw [Run.outcome_of_rst hr, Run.outcome_of_rst hq, hcfg, Run.setState, Run.setState, htaken]

/-- The outcome does not say which response words the host has taken already. -/
theorem Run.outcome_congr {r q : Run} (hr : r.state.rst = false) (hq : q.state.rst = false)
    (hf : SameFilter r.state q.state) (hrsp : q.taken ++ q.state.rspq = r.taken ++ r.state.rspq) :
    q.outcome = r.outcome := by
  rw [Run.outcome_of_not hr, Run.outcome_of_not hq, hrsp, State.imageWords_congr hf]
  obtain ⟨⟨hM, hK⟩, -⟩ := hf
  rw [hM, hK]

/-- Words answered join the end of the responses, and nothing else of the outcome changes. -/
theorem Run.outcome_setState_send {r : Run} (hr : r.state.rst = false) (rsp : List Word) :
    (r.setState (r.state.send rsp)).outcome =
      { r.outcome with responses := r.outcome.responses ++ rsp } := by
  have himage : (r.state.send rsp).imageWords = r.state.imageWords :=
    State.imageWords_congr ⟨⟨rfl, rfl⟩, rfl⟩
  rw [Run.outcome_of_not hr, Run.outcome_of_not (r := r.setState (r.state.send rsp)) hr,
    Run.setState_state, himage, State.send_rspq, ← List.append_assoc]
  rfl

/-- The words CLONE answers (R175). -/
def State.cloneResponse (s : State) : List Word := 0x0000000000000600 :: s.M :: s.K :: s.imageWords

theorem exec_clone (s : State) : exec .clone s = .next (s.send s.cloneResponse) := answersOnly_clone s

/-! ## The stream of words sent (R41, R73) -/

theorem encode_ne_nil {i : Instr} (hi : WellFormed i = true) : encode i ≠ [] :=
  List.ne_nil_of_length_pos (commandLength?_pos (commandLength?_encode hi))

theorem flatMap_encode_eq_nil {cs : List Instr} (hcs : ∀ i ∈ cs, WellFormed i = true)
    (h : cs.flatMap encode = []) : cs = [] :=
  List.eq_nil_iff_forall_not_mem.2 fun i hi =>
    encode_ne_nil (hcs i hi) (List.flatMap_eq_nil_iff.1 h i hi)

/-- The first words of a stream that begins with the words of a command are those of no whole command yet,
or decode to that command. -/
theorem decode_of_append_eq_encode_append {i : Instr} (hi : WellFormed i = true) {ws more later : List Word}
    (h : ws ++ more = encode i ++ later) :
    decode ws = .incomplete ∨ ∃ rest, decode ws = .command i rest ∧ rest ++ more = later := by
  rcases Nat.lt_or_ge ws.length (encode i).length with hlt | hle
  · refine .inl (decode_incomplete_of_lt (more := more) ?_ hlt)
    rw [h]
    exact commandLength?_append (commandLength?_encode hi) later
  · obtain ⟨rest, rfl⟩ := List.prefix_of_prefix_length_le ⟨later, h.symm⟩ (List.prefix_append ws more) hle
    rw [List.append_assoc] at h
    exact .inr ⟨rest, decode_encode_append hi rest, List.append_cancel_left h⟩

/-- Some first words of a well-formed command, perhaps none, and fewer than all of them. -/
def IsCommandPart (part : List Word) : Prop :=
  ∃ (c : Instr) (n : Nat), WellFormed c = true ∧ n < (encode c).length ∧ part = (encode c).take n

/-- Words that begin a proper part of a command hold no whole command. -/
theorem IsCommandPart.decode_incomplete {ws more : List Word} (h : IsCommandPart (ws ++ more)) :
    decode ws = .incomplete := by
  obtain ⟨c, n, hc, hn, h⟩ := h
  have hws : ws.length ≤ n := by
    have := congrArg List.length h
    rw [List.length_append, List.length_take] at this
    omega
  refine decode_incomplete_of_lt (more := more ++ (encode c).drop n) ?_ (Nat.lt_of_le_of_lt hws hn)
  rw [← List.append_assoc, h, List.take_append_drop]
  exact commandLength?_encode hc

/-- The first words of a stream of commands and a part of one more: no whole command yet, or the first
command of the stream, with the stream of the others after it. -/
theorem decode_of_stream {cs : List Instr} (hcs : ∀ i ∈ cs, WellFormed i = true) {part ws more : List Word}
    (hpart : IsCommandPart part) (h : ws ++ more = cs.flatMap encode ++ part) :
    decode ws = .incomplete ∨ ∃ i cs' rest, cs = i :: cs' ∧ decode ws = .command i rest ∧
      rest ++ more = cs'.flatMap encode ++ part := by
  cases cs with
  | nil => exact .inl (IsCommandPart.decode_incomplete (more := more) (by rw [h]; exact hpart))
  | cons i cs =>
    rw [List.flatMap_cons, List.append_assoc] at h
    obtain hinc | ⟨rest, hd, hrest⟩ := decode_of_append_eq_encode_append (hcs i List.mem_cons_self) h
    · exact .inl hinc
    · exact .inr ⟨i, cs, rest, rfl, hd, hrest⟩

/-- The words of the run `r` with the events `es` to come that no command has been performed from: those
received, those on the command channel and those to be sent. -/
def Run.unperformed (r : Run) (es : List Event) : List Word :=
  r.state.cmdbuf ++ (r.state.cmdq ++ sentWords es)

/-! ## What a run is heading for -/

/-- R49 for a list of commands: what they do to the filter and what they answer depend only on the commands,
the filter and the parameters. -/
theorem performAll_of_sameFilter {cs : List Instr} {s s' t : State} (hf : SameFilter s s')
    (hcfg : s'.cfg = s.cfg) (h : performAll cs s = .next t) :
    ∃ (t' : State) (rsp : List Word), performAll cs s' = .next t' ∧ SameFilter t t' ∧
      Emits s t rsp ∧ Emits s' t' rsp := by
  induction cs generalizing s s' with
  | nil =>
    cases h
    exact ⟨s', [], rfl, hf, (List.append_nil _).symm, (List.append_nil _).symm⟩
  | cons i cs ih =>
    obtain ⟨u, hu, ht⟩ := performAll_cons_eq_next.1 h
    obtain ⟨u', rsp, hu', hfu, hemits, hemits'⟩ := responseDependsOnCommandAndFilterOnly i s s' u hf hcfg hu
    obtain ⟨-, -, -, hcu⟩ := exec_sameInterface hu
    obtain ⟨-, -, -, hcu'⟩ := exec_sameInterface hu'
    obtain ⟨t', rsp', ht', hft, hmore, hmore'⟩ := ih hfu (hcu'.trans (hcfg.trans hcu.symm)) ht
    refine ⟨t', rsp ++ rsp', performAll_cons_eq_next.2 ⟨u', hu', ht'⟩, hft, ?_, ?_⟩
    · rw [Emits, hmore, hemits, List.append_assoc]
    · rw [Emits, hmore', hemits', List.append_assoc]

/-- Performing the commands `cs` from where the run `r` is gives the outcome `o`. -/
def Run.HeadsFor (r : Run) (cs : List Instr) (o : Observed) : Prop :=
  ∃ t, performAll cs r.state = .next t ∧ o = ⟨r.taken ++ t.rspq, t.M, t.K, t.imageWords⟩

theorem Run.headsFor_nil {r : Run} (hr : r.state.rst = false) : r.HeadsFor [] r.outcome :=
  ⟨r.state, rfl, Run.outcome_of_not hr⟩

theorem Run.HeadsFor.cons {r : Run} {t : State} {i : Instr} {cs : List Instr} {o : Observed}
    (h : (r.setState t).HeadsFor cs o) (he : exec i r.state = .next t) : r.HeadsFor (i :: cs) o := by
  obtain ⟨u, hu, ho⟩ := h
  exact ⟨u, performAll_cons_eq_next.2 ⟨t, he, hu⟩, ho⟩

/-- Where a run is heading shows neither in its channels nor in which responses the host has taken. -/
theorem Run.HeadsFor.congr {r q : Run} {cs : List Instr} {o : Observed} (h : q.HeadsFor cs o)
    (hf : SameFilter q.state r.state) (hcfg : r.state.cfg = q.state.cfg)
    (hrsp : q.taken ++ q.state.rspq = r.taken ++ r.state.rspq) : r.HeadsFor cs o := by
  obtain ⟨t, ht, rfl⟩ := h
  obtain ⟨t', rsp, ht', hft, hemits, hemits'⟩ := performAll_of_sameFilter hf hcfg ht
  refine ⟨t', ht', ?_⟩
  rw [hemits, hemits', ← List.append_assoc, ← List.append_assoc, hrsp, State.imageWords_congr hft]
  obtain ⟨⟨hM, hK⟩, -⟩ := hft
  rw [hM, hK]

/-- A step out of reset takes a word, holds the state, or performs the first command of the stream. -/
theorem step_headsFor {r : Run} {t : State} {cs : List Instr} (hcs : ∀ i ∈ cs, WellFormed i = true)
    {part : List Word} (hpart : IsCommandPart part) {es : List Event}
    (hr : r.state.rst = false) (h : step r.state = .next t)
    (hstream : r.unperformed es = cs.flatMap encode ++ part) :
    t.rst = false ∧ ∃ cs' ⊆ cs, (r.setState t).unperformed es = cs'.flatMap encode ++ part ∧
      ∀ o, (r.setState t).HeadsFor cs' o → r.HeadsFor cs o := by
  obtain hinc | ⟨i, cs', rest, rfl, hd, hrest⟩ := decode_of_stream hcs hpart hstream
  · rw [step_of_incomplete hr hinc] at h
    cases h
    obtain ⟨-, ht⟩ | ⟨w, q, hq, ht⟩ := r.state.takeWord_cases <;> rw [ht]
    · exact ⟨hr, cs, List.Subset.refl cs, hstream, fun _ => id⟩
    · refine ⟨hr, cs, List.Subset.refl cs, ?_, fun o ho => ho.congr ⟨⟨rfl, rfl⟩, rfl⟩ rfl rfl⟩
      rw [← hstream]
      simp [Run.unperformed, hq]
  · rw [step_of_command hr hd] at h
    obtain ⟨hbuf, hcmdq, hrst, -⟩ := exec_sameInterface h
    refine ⟨hrst.trans hr, cs', List.subset_cons_self i cs', ?_, fun o ho => ?_⟩
    · rw [Run.unperformed, Run.setState_state, hbuf, hcmdq]
      exact hrest
    · have hbefore : (r.setState (r.state.setBuf rest)).HeadsFor (i :: cs') o := Run.HeadsFor.cons ho h
      exact hbefore.congr ⟨⟨rfl, rfl⟩, rfl⟩ rfl rfl

/-- No event but a reset changes where a run is heading: what a command performed adds to the responses and
does to the filter is what it was heading for. -/
theorem extend_headsFor {r q : Run} {cs : List Instr} (hcs : ∀ i ∈ cs, WellFormed i = true)
    {part : List Word} (hpart : IsCommandPart part) {e : Event} {es : List Event}
    (hr : r.state.rst = false) (he : e ≠ .assertReset) (h : r.extend e = some q)
    (hstream : r.unperformed (e :: es) = cs.flatMap encode ++ part) :
    q.state.rst = false ∧ ∃ cs' ⊆ cs, q.unperformed es = cs'.flatMap encode ++ part ∧
      ∀ o, q.HeadsFor cs' o → r.HeadsFor cs o := by
  cases e with
  | step =>
    obtain ⟨t, ht, rfl⟩ := Run.extend_step_eq_some.1 h
    exact step_headsFor hcs hpart hr ht hstream
  | send w =>
    obtain rfl := Option.some.inj ((Run.extend_send_of_not hr w).symm.trans h)
    refine ⟨hr, cs, List.Subset.refl cs, ?_, fun o ho => ho.congr ⟨⟨rfl, rfl⟩, rfl⟩ rfl rfl⟩
    rw [← hstream]
    simp [Run.unperformed, sentWords]
  | take =>
    obtain ⟨w, rest, hq, rfl⟩ := Run.extend_take_eq_some h
    refine ⟨hr, cs, List.Subset.refl cs, hstream, fun o ho => ho.congr ⟨⟨rfl, rfl⟩, rfl⟩ rfl ?_⟩
    simp [hq]
  | assertReset => exact absurd rfl he

/-- A run without reset that ends with every word of the stream taken, and all but the last part performed,
ends with the outcome it was heading for. -/
theorem extendAll_headsFor {r r' : Run} {cs : List Instr} (hcs : ∀ i ∈ cs, WellFormed i = true)
    {part : List Word} (hpart : IsCommandPart part) {es : List Event}
    (hr : r.state.rst = false) (hes : .assertReset ∉ es) (h : r.extendAll es = some r')
    (hstream : r.unperformed es = cs.flatMap encode ++ part)
    (hq : r'.state.cmdq = []) (hb : r'.state.cmdbuf = part) : r.HeadsFor cs r'.outcome := by
  induction es generalizing r cs with
  | nil =>
    cases h
    have hnil : cs.flatMap encode = [] := by simpa [Run.unperformed, sentWords, hq, hb] using hstream
    obtain rfl := flatMap_encode_eq_nil hcs hnil
    exact Run.headsFor_nil hr
  | cons e es ih =>
    rw [List.mem_cons, not_or] at hes
    obtain ⟨he, hes⟩ := hes
    obtain ⟨q, hext, hrest⟩ := Run.extendAll_cons_eq_some.1 h
    obtain ⟨hrst, cs', hsub, hstream', hback⟩ := extend_headsFor hcs hpart hr (Ne.symm he) hext hstream
    exact hback _ (ih (fun i hi => hcs i (hsub hi)) hrst hes hrest hstream')

/-! ## The obligations -/

/-- Settles O51: nothing is unperformed in a quiescent run, so the stream is the words sent, and every event
keeps the outcome the run is heading for. -/
theorem outcomeIsThatOfTheCommandsSent : Obligations.OutcomeIsThatOfTheCommandsSent := by
  intro r r' es cs c n hquiet hcs hc hn hes hsent h hq' hb'
  obtain ⟨hq, hb, hr⟩ := hquiet
  have hstream : r.unperformed es = cs.flatMap encode ++ (encode c).take n := by
    rw [Run.unperformed, hb, hq, List.nil_append, List.nil_append, hsent]
  exact extendAll_headsFor hcs ⟨c, n, hc, hn, rfl⟩ hr hes h hstream hq' hb'

/-- Settles O52: the header is taken in the first step, and performed in the second from the state before it
was sent. -/
theorem finalCloneReadsTheOutcome : Obligations.FinalCloneReadsTheOutcome := by
  intro r hquiet
  obtain ⟨hq, hb, hr⟩ := hquiet
  have hsent : r.extend (.send 0x06) = some (r.setState (r.state.setCmdq [0x06])) := by
    rw [Run.extend_send_of_not hr, hq, List.nil_append]
  have htaken : step (r.state.setCmdq [0x06]) = .next (r.state.setBuf [0x06]) :=
    step_of_one_word hq hb hr 0x06
  have hperformed : step (r.state.setBuf [0x06]) = .next (r.state.send r.state.cloneResponse) := by
    rw [step_of_encode (s := r.state.setBuf [0x06]) (i := .clone) hr rfl rfl, State.setBuf_setBuf, ← hb,
      State.setBuf_self, exec_clone]
  refine ⟨r.setState (r.state.send r.state.cloneResponse), ?run, ⟨hq, hb, hr⟩, ?outcome⟩
  case run =>
    exact Run.extendAll_cons_eq_some.2 ⟨_, hsent, Run.extendAll_cons_eq_some.2
      ⟨_, Run.extend_step_eq_some.2 ⟨_, htaken, rfl⟩, Run.extendAll_cons_eq_some.2
        ⟨_, Run.extend_step_eq_some.2 ⟨_, hperformed, rfl⟩, rfl⟩⟩⟩
  case outcome =>
    rw [Run.outcome_setState_send hr, Run.outcome_of_not hr]
    rfl

/-- Settles O53: a take moves a word from the responses to be taken to those taken, an idle step holds the
state, and with a reset pending the outcome is that after the reset, which a step before it does not change. -/
theorem outcomeHidesTakesStallsAndResets : Obligations.OutcomeHidesTakesStallsAndResets := by
  refine ⟨fun r r' hr h => ?take, fun r r' hquiet h => ?idle, fun r r' hr h => ?pending,
    fun r r' q q' h hq hq' => ?choice⟩
  case take =>
    obtain ⟨w, rest, hrspq, rfl⟩ := Run.extend_take_eq_some h
    exact Run.outcome_congr hr hr ⟨⟨rfl, rfl⟩, rfl⟩ (by simp [hrspq])
  case idle =>
    obtain ⟨t, ht, rfl⟩ := Run.extend_step_eq_some.1 h
    rw [step_of_quiescent hquiet] at ht
    cases ht
    rfl
  case pending =>
    obtain ⟨t, ht, rfl⟩ := Run.extend_step_eq_some.1 h
    rw [step_of_rst hr] at ht
    cases ht
    exact (Run.outcome_of_rst hr).symm
  case choice =>
    obtain ⟨t, ht, rfl⟩ := Run.extend_step_eq_some.1 h
    have hcfg : t.cfg = r.state.cfg := step_cfg ht
    cases hq
    cases hq'
    exact Run.outcome_congr_of_rst rfl rfl rfl hcfg

/-- Settles O43: the reset state is made of the parameters alone, and the step keeps them. -/
theorem resetOutcomeSameWhetherCommandRan : Obligations.ResetOutcomeSameWhetherCommandRan := by
  intro s t h
  have hreset : step t.hostReset = .next (State.resetWith s.cfg) := by
    rw [step_of_rst rfl, State.hostReset_cfg, step_cfg h]
  exact ⟨State.resetWith s.cfg, step_of_rst rfl, hreset, rfl, rfl⟩

end Sys2Proof.Machine
